-- ==== Sys2Proof/Word.lean ====
section
/-! DEFINITION. The fixed widths of the block (00_scope.md R5, R7, R8). -/

namespace Sys2Proof

/-- One image byte or one header byte: `BYTE_W` = 8 bits, unsigned (R5). -/
abbrev Byte := BitVec 8

/-- A u32: `SUM_W` = `LEN_W` = 32 bits, unsigned (R5, R7). -/
abbrev Word := BitVec 32

/-- A command word: `CMD_W` = 10 bits (R5, R40). -/
abbrev Cmd := BitVec 10

/-- A value of the `FAULT` register: `FAULT_W` = 2 bits (R5, R17). -/
abbrev FaultCode := BitVec 2

/-- `2^32`, the modulus of the checksum (R7, R56). -/
abbrev u32Modulus : Nat := 4294967296

end Sys2Proof
end

