-- ==== Sys2Proof/Syntax.lean ====
section
/-! DEFINITION. The commands of the block, whole (30_encoding.md R41), and the lines of its assembler's text form
(30_encoding.md R48 and R49). -/

namespace Sys2Proof

/-- The three commands: one constructor per row of spec/opcode_table.json (30_encoding.md R41).
The only operand is ABSORB's byte, 0 to 255 (R42). -/
inductive Instr where
  /-- CLEAR, 40_accumulate.md R52. -/
  | clear
  /-- ABSORB b, 40_accumulate.md R53 and R54. -/
  | absorb (b : Byte)
  /-- EMIT, 41_serialize.md R59. -/
  | emit
  deriving DecidableEq, Repr

/-- Why a word is reserved: the three ranges of 30_encoding.md R45. -/
inductive Reserved where
  /-- `op` = 00 with any data: 0x000 to 0x0FF. -/
  | opZero
  /-- `op` = 01 with non-zero data: 0x101 to 0x1FF. -/
  | clearData
  /-- `op` = 11 with non-zero data: 0x301 to 0x3FF. -/
  | emitData
  deriving DecidableEq, Repr

/-- What the decoder answers on a word (30_encoding.md R46): a command, or the verdict `ILLEGAL`, which says which
reserved range the word lies in. -/
inductive Verdict where
  | command (i : Instr)
  | illegal (r : Reserved)
  deriving DecidableEq, Repr

/-- One line of assembler text, its numbers as the text writes them (30_encoding.md R48), and the
pseudo-instructions (R49). -/
inductive AsmLine where
  | clear
  | absorb (n : Nat)
  | emit
  /-- `.word <w>`: the word itself, "used to write a reserved word in a test". -/
  | word (n : Nat)
  | absorbs (ns : List Nat)
  | build (ns : List Nat)
  deriving DecidableEq, Repr

end Sys2Proof
end

