-- ==== Sys2Proof/WellFormed.lean ====
section
/-! DEFINITION. What an assembler checks before it makes words: "An assembler rejects a byte outside 0 to 255 and a
word outside 0x000 to 0x3FF" (30_encoding.md R48). -/

namespace Sys2Proof

/-- A number that is an image byte (30_encoding.md R42, R48). -/
def byteInRange (n : Nat) : Bool := decide (n ≤ 255)

/-- A number that is a command word (30_encoding.md R40, R48). -/
def wordInRange (n : Nat) : Bool := decide (n ≤ 0x3FF)

/-- Every `Instr` is well-formed: its one operand is a byte by its type (30_encoding.md R42), and no command has
another condition on its operands (log entry 12). The check is on the text's numbers, `AsmLine.wf`. -/
def Instr.wf : Instr → Bool
  | .clear => true
  | .absorb _ => true
  | .emit => true

/-- The assembler's check on one line (30_encoding.md R48, R49). -/
def AsmLine.wf : AsmLine → Bool
  | .clear => true
  | .absorb n => byteInRange n
  | .emit => true
  | .word n => wordInRange n
  | .absorbs ns => ns.all byteInRange
  | .build ns => ns.all byteInRange

end Sys2Proof
end

