-- ==== Sys2Proof/Decode.lean ====
section
/-! DEFINITION. The decoder, total on all 1024 words (30_encoding.md R40, R41, R45, R46), and the encoder, written
from the same table. -/

namespace Sys2Proof

/-- Field `op`, bits 9:8 (30_encoding.md R40). -/
def opField (w : Cmd) : BitVec 2 := w.extractLsb' 8 2

/-- Field `data`, bits 7:0 (30_encoding.md R40). -/
def dataField (w : Cmd) : Byte := w.extractLsb' 0 8

/-- The range of 30_encoding.md R45 a reserved word lies in, told by its `op`. -/
def reservedRange (w : Cmd) : Reserved :=
  if opField w = 0b00#2 then .opZero
  else if opField w = 0b01#2 then .clearData
  else .emitData

/-- 30_encoding.md R46. -/
def decode (w : Cmd) : Verdict :=
  if w = 0x100#10 then .command .clear
  else if opField w = 0b10#2 then .command (.absorb (dataField w))
  else if w = 0x300#10 then .command .emit
  else .illegal (reservedRange w)

/-- Is the word one of the 766 reserved ones (30_encoding.md R45)? -/
def isReserved (w : Cmd) : Bool :=
  match decode w with
  | .command _ => false
  | .illegal _ => true

/-- The word of a command: `op` in bits 9:8 and `data` in bits 7:0, zero where the command has no operand
(30_encoding.md R40, R41). -/
def encode : Instr → Cmd
  | .clear => 0b01#2 ++ 0x00#8
  | .absorb b => 0b10#2 ++ b
  | .emit => 0b11#2 ++ 0x00#8

/-- `absorbs`: one ABSORB for each byte, in order; no word for no byte (30_encoding.md R49). -/
def absorbsOf (image : List Byte) : List Cmd := image.map fun b => encode (.absorb b)

/-- `build`: CLEAR, one ABSORB for each byte of the image, EMIT (30_encoding.md R49). -/
def buildOf (image : List Byte) : List Cmd := encode .clear :: absorbsOf image ++ [encode .emit]

/-- The column `mask` of the opcode map (30_encoding.md R41). -/
def tableMask : Instr → Cmd
  | .clear => 0x3FF#10
  | .absorb _ => 0x300#10
  | .emit => 0x3FF#10

/-- The column `match` of the opcode map (30_encoding.md R41). -/
def tableMatch : Instr → Cmd
  | .clear => 0x100#10
  | .absorb _ => 0x200#10
  | .emit => 0x300#10

/-- The command word that the low `nbits` bits of a number give: none for a number above 0x3FF, which is no word of
10 bits (30_encoding.md R40, R48).
DESIGN CHOICE (log entry 8): bits above bit 9 are refused, not dropped. -/
def tableWord (nbits w : Nat) : Option Cmd :=
  if wordInRange (w % 2 ^ nbits) then some (BitVec.ofNat 10 (w % 2 ^ nbits)) else none

/-- The command the decoder reads from a number, whose bits are numbered as spec/opcode_table.json numbers them. -/
def decodeTableWord (nbits w : Nat) : Option Instr :=
  match tableWord nbits w with
  | none => none
  | some c =>
    match decode c with
    | .command i => some i
    | .illegal _ => none

end Sys2Proof
end

