-- ==== Sys2Proof/Config.lean ====
section
/-! DEFINITION. What is fixed for this hardware and is not state (00_scope.md R5). The spec leaves no value open, so
there is no free value here. -/

namespace Sys2Proof.Config

/-- `MAGIC`, the hardwired constant: ASCII `BOOT` read little-endian (00_scope.md R5 and R6, 10_state.md R18).
DESIGN CHOICE (log entry 11): carried as a constant of the configuration, which R18 allows. -/
def magic : Word := 0x544F4F42#32

/-- `HDR_LEN`: the number of bytes of a header frame (00_scope.md R5). -/
def hdrLen : Nat := 12

/-- `MAX_IMAGE_LEN`: the length of the longest valid image, 2^32 - 1 (00_scope.md R5). -/
def maxImageLen : Nat := 4294967295

end Sys2Proof.Config
end

