-- ==== Sys2Proof/Machine/State.lean ====
section
/-! DEFINITION. The state of the block and of the host's side of its command port, as plain data
(10_state.md R13 to R25). -/

namespace Sys2Proof.Machine

/-- The two faults of 60_exceptions.md R67. A fault is recorded in the register `FAULT` and the block goes on; it is
not an outcome of `step` (log entry 10). -/
inductive FaultCause where
  /-- R68: an ABSORB with `LEN` = 0xFFFFFFFF. -/
  | lengthOverflow
  /-- R69: a reserved word. -/
  | illegalCommand
  deriving DecidableEq, Repr

/-- What the host does at the block's inputs: it offers a command word or asserts reset (30_encoding.md R43 (a) and
(d), 70_reset_and_hazards.md R81 and R94). -/
inductive HostEvent where
  | command (w : Cmd)
  | reset
  deriving DecidableEq, Repr

/-- The header record {magic: u32, size: u32, checksum: u32} (00_scope.md R12, 41_serialize.md R63). -/
structure Header where
  magic : Word
  size : Word
  checksum : Word
  deriving DecidableEq, Repr

/-- The block's three registers and its output trace (10_state.md R13, R19), and, beside them, two fields that belong
to the host: what it has yet to issue, and the index of the command it issues next. -/
structure State where
  /-- `SUM`, the checksum accumulator (R14). -/
  sum : Word
  /-- `LEN`, the byte counter (R15). -/
  len : Word
  /-- `FAULT`, the sticky status register (R17). DESIGN CHOICE (log entry 5): two bits, so that the value 3, which the
  block never produces, is representable. -/
  fault : FaultCode
  /-- `OUT`, every byte produced since the start of the run, oldest first (R19). -/
  out : List Byte
  /-- What the host has yet to issue, oldest first (30_encoding.md R43). DESIGN CHOICE (log entry 1). -/
  pending : List HostEvent
  /-- The index of the next command in the host's sequence (R16), which no rule of the block reads (log entry 4). -/
  pc : Nat
  deriving DecidableEq, Repr

/-- The state right after the reset that begins a run (10_state.md R25, R19, R16; 70_reset_and_hazards.md R81, R82).
That the host has nothing queued is the model's choice (log entry 1). -/
def State.reset : State where
  sum := 0#32
  len := 0#32
  fault := 0#2
  out := []
  pending := []
  pc := 0

/-- The reasons for which `step` stops the machine with a fault: none. "`step` is a total function: every word in
every state has exactly one outcome, there is no stuck state" (40_accumulate.md R51). LengthOverflow and
IllegalCommand are taken, not stops: see `FaultCause` (log entry 10). -/
inductive Fault where
  deriving DecidableEq, Repr

/-- The reasons for which a command has no meaning in the model. -/
inductive Refusal where
  /-- Raised by an arm of `exec` whose command has no meaning yet; no arm raises it now. Safe: nothing can be proved
  of the next state of a command that is refused. -/
  | notModelled (mnemonic : String)
  deriving DecidableEq, Repr

end Sys2Proof.Machine
end

