-- ==== Sys2Proof/Machine/Flags.lean ====
section
/-! DEFINITION. `FAULT`, the block's only flag-like state (10_state.md R17, R21): its codes and the conditions that
are tested on it and on `LEN`. There is no carry, overflow or zero flag (R21). -/

namespace Sys2Proof.Machine

/-- The code a fault leaves in `FAULT` (10_state.md R17, 60_exceptions.md R67). -/
def FaultCause.code : FaultCause → FaultCode
  | .lengthOverflow => 1#2
  | .illegalCommand => 2#2

/-- The faulted condition, `FAULT` non-zero (60_exceptions.md R73). -/
def State.faulted (s : State) : Bool := decide (s.fault ≠ 0#2)

/-- The counter is full: one more byte would make the image 2^32 bytes long (40_accumulate.md R54). -/
def State.lenFull (s : State) : Bool := decide (s.len = 0xFFFFFFFF#32)

end Sys2Proof.Machine
end

