-- ==== Sys2Proof/Machine/Operands.lean ====
section
/-! DEFINITION. The one operand form of the block: ABSORB's data byte (30_encoding.md R42). -/

namespace Sys2Proof.Machine

/-- The image byte as the adder takes it, `zext_32(data)`: zero-extended, never sign-extended, not scaled and not
shifted (30_encoding.md R42). -/
def byteOperand (b : Byte) : Word := b.setWidth 32

end Sys2Proof.Machine
end

