-- ==== Sys2Proof/Machine/Ops.lean ====
section
/-! DEFINITION. The named operations over the registers and the output trace, which the meanings share. -/

namespace Sys2Proof.Machine

/-! ### Arithmetic and bytes -/

/-- `add32(a, b)`: the low 32 bits of the sum; the carry is dropped (40_accumulate.md R55). -/
def add32 (a : Word) (b : Byte) : Word := a + byteOperand b

/-- `le32(v)`: the four bytes of a u32, least significant first (20_memory.md R28). -/
def le32 (v : Word) : List Byte :=
  [v.extractLsb' 0 8, v.extractLsb' 8 8, v.extractLsb' 16 8, v.extractLsb' 24 8]

/-- `pack(m, n, c)`: the 12 bytes of a header frame (41_serialize.md R60, 20_memory.md R29). -/
def pack (m n c : Word) : List Byte := le32 m ++ le32 n ++ le32 c

/-! ### Level outputs -/

/-- Output `hdr_magic` (10_state.md R18, R20). -/
def hdrMagic (_ : State) : Word := Config.magic

/-- Output `hdr_size` (10_state.md R20). -/
def hdrSize (s : State) : Word := s.len

/-- Output `hdr_checksum` (10_state.md R20). -/
def hdrChecksum (s : State) : Word := s.sum

/-- Output `fault` (10_state.md R20). -/
def faultOutput (s : State) : FaultCode := s.fault

/-- The header record as the three outputs show it (41_serialize.md R63). -/
def headerRecord (s : State) : Header := ⟨hdrMagic s, hdrSize s, hdrChecksum s⟩

/-- The field of the header that frame offset `k` lies in: `k div 4` (20_memory.md R29, R30). -/
def hdrField (s : State) (k : Fin 12) : Word :=
  if k.val / 4 = 0 then Config.magic else if k.val / 4 = 1 then s.len else s.sum

/-- `hdr_byte(k)`: the byte at frame offset `k` (20_memory.md R30). Offsets beyond 11 do not exist (R35). -/
def hdrByte (s : State) (k : Fin 12) : Byte := (hdrField s k).extractLsb' (8 * (k.val % 4)) 8

/-! ### Faults: entry, gate, return -/

/-- Fault entry, `raise F`: the code into `FAULT` and nothing else (60_exceptions.md R72). It is called behind
`gate`, so it happens only with `FAULT` = 0. -/
def raise (c : FaultCause) (s : State) : State := { s with fault := c.code }

/-- The fault gate: "if `FAULT` != 0 then nothing else …" (40_accumulate.md R51, 60_exceptions.md R73). -/
def gate (f : State → State) (s : State) : State := if s.faulted then s else f s

/-- The three registers to zero: what CLEAR does, what reset does, and the only way out of the faulted condition
(40_accumulate.md R52, 70_reset_and_hazards.md R81, 60_exceptions.md R74). `OUT` stays (10_state.md R19). -/
def clearRegisters (s : State) : State := { s with sum := 0#32, len := 0#32, fault := 0#2 }

/-! ### Data movement -/

/-- The image byte added and counted (40_accumulate.md R53). -/
def addAndCount (b : Byte) (s : State) : State := { s with sum := add32 s.sum b, len := s.len + 1#32 }

/-- `Out(bytes)`: the bytes to the end of the output trace, in list order (00_scope.md R9, 10_state.md R19). -/
def appendOut (bytes : List Byte) (s : State) : State := { s with out := s.out ++ bytes }

end Sys2Proof.Machine
end

