-- ==== Sys2Proof/Machine/Accumulate.lean ====
section
/-! DEFINITION. The meanings of CLEAR and ABSORB (40_accumulate.md). -/

namespace Sys2Proof.Machine

/-- `exec_ABSORB(b)` with `FAULT` = 0: LengthOverflow at full count, else the byte is added and counted
(40_accumulate.md R53, R54). -/
def absorbByte (b : Byte) (s : State) : State :=
  if s.lenFull then raise .lengthOverflow s else addAndCount b s

/-- CLEAR runs whatever `FAULT` is (40_accumulate.md R51, R52). -/
def execClear (s : State) : Host.Outcome State Fault Refusal := .next (clearRegisters s)

/-- ABSORB b, behind the fault gate (40_accumulate.md R51, R53, R54). -/
def execAbsorb (b : Byte) (s : State) : Host.Outcome State Fault Refusal := .next (gate (absorbByte b) s)

end Sys2Proof.Machine
end

