-- ==== Sys2Proof/Machine/Serialize.lean ====
section
/-! DEFINITION. The meaning of EMIT (41_serialize.md). -/

namespace Sys2Proof.Machine

/-- `exec_EMIT` with `FAULT` = 0: the 12 bytes of one snapshot of (`MAGIC`, `LEN`, `SUM`) go to `OUT`, in one step
(41_serialize.md R59, R61; log entry 6). -/
def emitFrame (s : State) : State := appendOut (pack Config.magic s.len s.sum) s

/-- EMIT, behind the fault gate (40_accumulate.md R51, 41_serialize.md R59, R62). -/
def execEmit (s : State) : Host.Outcome State Fault Refusal := .next (gate emitFrame s)

end Sys2Proof.Machine
end

