-- ==== Sys2Proof/Machine/Dispatch.lean ====
section
/-! DEFINITION. One arm per command (40_accumulate.md R51). -/

namespace Sys2Proof.Machine

/-- The meaning of a command (40_accumulate.md R51). -/
def exec (i : Instr) (s : State) : Host.Outcome State Fault Refusal :=
  match i with
  | .clear => Sys2Proof.Machine.execClear s
  | .absorb b => Sys2Proof.Machine.execAbsorb b s
  | .emit => Sys2Proof.Machine.execEmit s

end Sys2Proof.Machine
end

