-- ==== Sys2Proof/Machine/Fetch.lean ====
section
/-! DEFINITION. What stands around `exec`: how a command word is accepted, what a reserved word does, and what the
host's reset does (30_encoding.md R43, 60_exceptions.md R69, 70_reset_and_hazards.md R81). -/

namespace Sys2Proof.Machine

/-- The host's command is accepted: it leaves the queue, and the host's index goes up by exactly one, whatever the
word is and whatever becomes of it (10_state.md R16, 30_encoding.md R43 (a)). -/
def acceptCommand (rest : List HostEvent) (s : State) : State := { s with pending := rest, pc := s.pc + 1 }

/-- A reserved word, behind the fault gate: IllegalCommand (40_accumulate.md R51, 60_exceptions.md R69, R73). -/
def execIllegal (s : State) : Host.Outcome State Fault Refusal := .next (gate (raise .illegalCommand) s)

/-- The command or the reserved word the decoder read (40_accumulate.md R51). -/
def execVerdict (v : Verdict) (s : State) : Host.Outcome State Fault Refusal :=
  match v with
  | .command i => exec i s
  | .illegal _ => execIllegal s

/-- The reset event: the registers to their reset values; `OUT` stays (70_reset_and_hazards.md R81, R82). The host's
index stays, since reset is not a command (10_state.md R16; log entry 4). -/
def acceptReset (rest : List HostEvent) (s : State) : State := { clearRegisters s with pending := rest }

/-- The host offers one word next: it goes to the front of what it has yet to issue. -/
def offerCommand (w : Cmd) (s : State) : State := { s with pending := .command w :: s.pending }

end Sys2Proof.Machine
end

