-- ==== Sys2Proof/Machine/Step.lean ====
section
/-! DEFINITION. One step: the acceptance and complete execution of what the host issues next (00_scope.md R10). -/

namespace Sys2Proof.Machine

/-- One step (40_accumulate.md R51, 00_scope.md R10). With nothing offered the block is idle with its state held
(60_exceptions.md R79; log entry 2). The reset event is a step of its own, between two commands
(70_reset_and_hazards.md R81; log entry 3). -/
def step (s : State) : Host.Outcome State Fault Refusal :=
  match s.pending with
  | [] => .next s
  | .reset :: rest => .next (acceptReset rest s)
  | .command w :: rest => execVerdict (decode w) (acceptCommand rest s)

/-- The state with one command word placed where `step` takes its next one: at the front of what the host has yet to
issue (log entry 8). A number that is no 10-bit word cannot be offered, and leaves the state as it is. -/
def State.withFetchWord (s : State) (nbits w : Nat) : State :=
  match tableWord nbits w with
  | some c => offerCommand c s
  | none => s

end Sys2Proof.Machine
end

