-- ==== Sys2Proof/Machine/Assembler.lean ====
section
/-! DEFINITION. The assembler's text form and the pseudo-instructions (30_encoding.md R48, R49). What the rules leave
open of the text form is log entry 9. -/

namespace Sys2Proof.Machine

/-- The bytes that numbers in range stand for. -/
def bytesOf (ns : List Nat) : List Byte := ns.map (BitVec.ofNat 8)

/-- The words of a line whose numbers are in range (30_encoding.md R48, R49). -/
def lineWords : AsmLine → List Cmd
  | .clear => [encode .clear]
  | .absorb n => [encode (.absorb (BitVec.ofNat 8 n))]
  | .emit => [encode .emit]
  | .word n => [BitVec.ofNat 10 n]
  | .absorbs ns => absorbsOf (bytesOf ns)
  | .build ns => buildOf (bytesOf ns)

/-- One line to its words; rejected when a byte or a word is out of range (30_encoding.md R48). -/
def assembleLine (l : AsmLine) : Option (List Cmd) := if l.wf then some (lineWords l) else none

/-! ### Reading the text -/

/-- White space within a line. -/
def isBlank (c : Char) : Bool := c == ' ' || c == '\t' || c == '\r'

/-- The text without white space at its two ends. -/
def trimBlank (t : List Char) : List Char := ((t.dropWhile isBlank).reverse.dropWhile isBlank).reverse

/-- The text cut at every occurrence of a separator. -/
def cutAt (sep : Char) : List Char → List (List Char)
  | [] => [[]]
  | c :: cs =>
    if c == sep then [] :: cutAt sep cs
    else
      match cutAt sep cs with
      | [] => [[c]]
      | t :: ts => (c :: t) :: ts

/-- The value of one digit, for a base up to 16, in either case. -/
def digitValue (base : Nat) (c : Char) : Option Nat :=
  let n := c.toNat
  let v := if 48 ≤ n ∧ n ≤ 57 then n - 48
    else if 97 ≤ n ∧ n ≤ 102 then n - 87
    else if 65 ≤ n ∧ n ≤ 70 then n - 55
    else base
  if v < base then some v else none

/-- Digits read from the left onto a value. -/
def readDigits (base : Nat) : List Char → Nat → Option Nat
  | [], v => some v
  | c :: cs, v =>
    match digitValue base c with
    | none => none
    | some d => readDigits base cs (base * v + d)

/-- At least one hexadecimal digit after `0x`. -/
def readHex : List Char → Option Nat
  | '0' :: 'x' :: c :: cs => readDigits 16 (c :: cs) 0
  | '0' :: 'X' :: c :: cs => readDigits 16 (c :: cs) 0
  | _ => none

/-- `<byte>`: hexadecimal after `0x`, or decimal (30_encoding.md R48). -/
def readByte (t : List Char) : Option Nat :=
  match readHex t with
  | some n => some n
  | none => if t.isEmpty then none else readDigits 10 t 0

/-- A list of byte operands, each read by itself. -/
def readByteList : List (List Char) → Option (List Nat)
  | [] => some []
  | t :: ts =>
    match readByte (trimBlank t), readByteList ts with
    | some n, some ns => some (n :: ns)
    | _, _ => none

/-- `<b0>, <b1>, ..., <bk>`, or no byte at all (30_encoding.md R49). -/
def readBytes (t : List Char) : Option (List Nat) :=
  if t.isEmpty then some [] else readByteList (cutAt ',' t)

/-- A mnemonic, directive or pseudo-instruction, in lower case, with its operand text (30_encoding.md R48, R49). -/
def readCommand (mnemonic operand : List Char) : Option AsmLine :=
  if mnemonic = ['c', 'l', 'e', 'a', 'r'] then
    if operand.isEmpty then some .clear else none
  else if mnemonic = ['e', 'm', 'i', 't'] then
    if operand.isEmpty then some .emit else none
  else if mnemonic = ['a', 'b', 's', 'o', 'r', 'b'] then (readByte operand).map .absorb
  else if mnemonic = ['.', 'w', 'o', 'r', 'd'] then (readHex operand).map .word
  else if mnemonic = ['a', 'b', 's', 'o', 'r', 'b', 's'] then (readBytes operand).map .absorbs
  else if mnemonic = ['b', 'u', 'i', 'l', 'd'] then (readBytes operand).map .build
  else none

/-- The words of one line of text: nothing for a line that is empty or only a comment, which runs from `;` to the end
of the line (30_encoding.md R48). DESIGN CHOICE (log entry 9): the first word is read in either case whatever it is,
`.word`, `absorbs` and `build` as well as the mnemonics, which are all that R48 makes case-insensitive. -/
def assembleTextLine (t : List Char) : Option (List Cmd) :=
  let body := trimBlank (t.takeWhile fun c => c != ';')
  if body.isEmpty then some []
  else
    match readCommand ((body.takeWhile fun c => !isBlank c).map Char.toLower)
        (trimBlank (body.dropWhile fun c => !isBlank c)) with
    | none => none
    | some l => assembleLine l

/-- The words of some lines of text, in order; rejected if one line is. -/
def assembleLines : List (List Char) → Option (List Cmd)
  | [] => some []
  | t :: ts =>
    match assembleTextLine t, assembleLines ts with
    | some ws, some rest => some (ws ++ rest)
    | _, _ => none

/-- A text of one command per line to its command words (30_encoding.md R48, R49). -/
def assemble (text : List Char) : Option (List Cmd) := assembleLines (cutAt '\n' text)

end Sys2Proof.Machine
end

