-- ==== Sys2Proof/Safety.lean ====
section
/-! DEFINITION. The terms claims are made in: the checksum and header of an image as the source document defines them
(40_accumulate.md R56, 41_serialize.md R63), the software component the block realises (00_scope.md R11), the
invariant of the block's state (10_state.md R26) and what a good run is (70_reset_and_hazards.md R94). -/

namespace Sys2Proof.Safety

open Sys2Proof.Machine

/-! ### The document's functions -/

/-- `checksum(S)`: the sum of all image bytes modulo 2^32 (40_accumulate.md R56). -/
def checksum (image : List Byte) : Word := BitVec.ofNat 32 (image.map BitVec.toNat).sum

/-- `build(S)`: the header record of an image (41_serialize.md R63, R64). -/
def build (image : List Byte) : Header := ⟨Config.magic, BitVec.ofNat 32 image.length, checksum image⟩

/-- The header frame of a header record (00_scope.md R12). -/
def frame (h : Header) : List Byte := pack h.magic h.size h.checksum

/-! ### Runs -/

/-- The events of a list of command words. -/
def commands (ws : List Cmd) : List HostEvent := ws.map .command

/-- The state with these events queued and nothing else. -/
def withEvents (s : State) (es : List HostEvent) : State := { s with pending := es }

/-- The outcome after the block has taken all of these events, one step each (20_memory.md R36). -/
def runEvents (s : State) (es : List HostEvent) : Host.Outcome State Fault Refusal :=
  Sys2Proof.core.run es.length (withEvents s es)

/-- Is the event a command, and so counted by the host's index (10_state.md R16)? -/
def isCommand : HostEvent → Bool
  | .command _ => true
  | .reset => false

/-- The run is at its end: the host's sequence is exhausted (70_reset_and_hazards.md R94, 10_state.md R16).
DESIGN CHOICE (log entry 14): a reset still queued after the last command belongs to the run, so the run ends when no
event of either kind is left; R94 and R16 speak only of the sequence of commands. -/
def runEnded (s : State) : Prop := s.pending = []

/-- A good run at its end: no fault, and `OUT` holds the frames the claim expects (70_reset_and_hazards.md R94).
By `runEnded`'s choice `FAULT` is read after a reset that follows the last command, which clears it (log entry 14). -/
def goodEnd (expected : List Byte) (s : State) : Prop := runEnded s ∧ s.fault = 0#2 ∧ s.out = expected

/-! ### The invariant -/

/-- `OUT` is a sequence of whole header frames (10_state.md R26 (d)). -/
def framed (out : List Byte) : Prop :=
  ∃ snapshots : List (Word × Word), out = snapshots.flatMap fun p => pack Config.magic p.1 p.2

/-- The invariant of the state that needs no history: 10_state.md R26 (a) and the framing of (d). -/
def Inv (s : State) : Prop := s.fault ≠ 3#2 ∧ framed s.out

/-! ### The software component -/

/-- The component as the document has it, with no register widths: the image absorbed since the last CLEAR or reset,
the fault since then, and the images whose headers were emitted, oldest first (10_state.md R14, R15, R17, R26). -/
structure FrameBuilder where
  image : List Byte
  fault : Option FaultCause
  emitted : List (List Byte)

/-- The component at the start of a run. -/
def FrameBuilder.start : FrameBuilder := ⟨[], none, []⟩

/-- A reserved word, or a command, on the component: bytes are kept while they fit the 32-bit size field, a header is
emitted of the whole image, and after a fault only CLEAR acts (40_accumulate.md R51 to R54, 41_serialize.md R59). -/
def FrameBuilder.command (v : Verdict) (a : FrameBuilder) : FrameBuilder :=
  match v, a.fault with
  | .command .clear, _ => { a with image := [], fault := none }
  | _, some _ => a
  | .command (.absorb b), none =>
    if a.image.length = Config.maxImageLen then { a with fault := some .lengthOverflow }
    else { a with image := a.image ++ [b] }
  | .command .emit, none => { a with emitted := a.emitted ++ [a.image] }
  | .illegal _, none => { a with fault := some .illegalCommand }

/-- One host event on the component. -/
def FrameBuilder.event (a : FrameBuilder) (e : HostEvent) : FrameBuilder :=
  match e with
  | .reset => { a with image := [], fault := none }
  | .command w => a.command (decode w)

/-- The value of the register `FAULT` for a recorded fault (10_state.md R17). -/
def faultCodeOf : Option FaultCause → FaultCode
  | none => 0#2
  | some c => c.code

/-- The block's state stands for the component's: `SUM` and `LEN` describe the image, `FAULT` the fault, and `OUT`
holds the frame of each image whose header was emitted (10_state.md R14, R15, R17, R26). -/
structure Represents (a : FrameBuilder) (s : State) : Prop where
  sum : s.sum = checksum a.image
  len : s.len.toNat = a.image.length
  fault : s.fault = faultCodeOf a.fault
  out : s.out = a.emitted.flatMap fun image => frame (build image)

/-! ### History -/

/-- The bytes the ABSORB commands of a history carried since its last CLEAR or reset, after those of `before`
(10_state.md R26 (b)). -/
def absorbedSince : List Byte → List HostEvent → List Byte
  | before, [] => before
  | _, .reset :: es => absorbedSince [] es
  | before, .command w :: es =>
    match decode w with
    | .command .clear => absorbedSince [] es
    | .command (.absorb b) => absorbedSince (before ++ [b]) es
    | .command .emit => absorbedSince before es
    | .illegal _ => absorbedSince before es

end Sys2Proof.Safety
end

