-- ==== Sys2Proof/Certificates/Slice0/Obligations.lean ====
section
/-! DEFINITION. The statements for the provers. Each docstring names the rule of spec/ it formalises. -/

open Sys2Proof Sys2Proof.Machine Sys2Proof.Safety

/-! ### Encoding -/

/-- 30_encoding.md R46: the decoder's four verdicts, on every word. -/
def Obligations.DecodeIsTotalAndFollowsTheMap : Prop :=
  ∀ w : Cmd,
    (w = 0x100#10 → decode w = .command .clear) ∧
    (w.extractLsb' 8 2 = 0b10#2 → decode w = .command (.absorb (w.extractLsb' 0 8))) ∧
    (w = 0x300#10 → decode w = .command .emit) ∧
    (w ≠ 0x100#10 → w.extractLsb' 8 2 ≠ 0b10#2 → w ≠ 0x300#10 → ∃ r, decode w = .illegal r)

/-- 30_encoding.md R41: a word selects a row when `w AND mask = match`; the words of each row; every word that
selects no row is reserved. The rows are disjoint, since `decode w` is one verdict. -/
def Obligations.OpcodeMapSelectsTheRows : Prop :=
  ∀ w : Cmd,
    (w &&& 0x3FF#10 = 0x100#10 ↔ decode w = .command .clear) ∧
    (w &&& 0x300#10 = 0x200#10 ↔ ∃ b, decode w = .command (.absorb b)) ∧
    (w &&& 0x3FF#10 = 0x300#10 ↔ decode w = .command .emit) ∧
    (decode w = .command .clear ↔ w.toNat = 0x100) ∧
    ((∃ b, decode w = .command (.absorb b)) ↔ 0x200 ≤ w.toNat ∧ w.toNat ≤ 0x2FF) ∧
    (∀ b, decode w = .command (.absorb b) ↔ w.toNat = 0x200 + b.toNat) ∧
    (decode w = .command .emit ↔ w.toNat = 0x300) ∧
    (isReserved w = true ↔
      ¬ (w &&& 0x3FF#10 = 0x100#10 ∨ w &&& 0x300#10 = 0x200#10 ∨ w &&& 0x3FF#10 = 0x300#10))

/-- 30_encoding.md R45 and 60_exceptions.md R69: which words are reserved, how many they are, and that executing one
with `FAULT` = 0 is fault entry with code 2 and nothing else. That the host's queue and index move on is the model's
choice (log entries 1 and 4). -/
def Obligations.ReservedWordsRaiseIllegalCommand : Prop :=
  (∀ w : Cmd, isReserved w = true ↔
    w.toNat ≤ 0x0FF ∨ (0x101 ≤ w.toNat ∧ w.toNat ≤ 0x1FF) ∨ (0x301 ≤ w.toNat ∧ w.toNat ≤ 0x3FF)) ∧
  ((List.range 1024).filter fun n => isReserved (BitVec.ofNat 10 n)).length = 766 ∧
  (∀ (s : State) (w : Cmd) (rest : List HostEvent), s.pending = .command w :: rest → isReserved w = true →
    s.fault = 0#2 → step s = .next { s with fault := 2#2, pending := rest, pc := s.pc + 1 })

/-- 95_test_vectors.md section 2: words written out from the encoding, and what each decodes to. -/
def Obligations.WrittenOutWordsDecode : Prop :=
  decode 0b0100000000#10 = .command .clear ∧
  decode 0b1000000000#10 = .command (.absorb 0x00#8) ∧
  decode 0b1010000000#10 = .command (.absorb 0x80#8) ∧
  decode 0b1011111111#10 = .command (.absorb 0xFF#8) ∧
  decode 0b1100000000#10 = .command .emit ∧
  decode 0b0000000000#10 = .illegal .opZero ∧
  decode 0b0100000001#10 = .illegal .clearData ∧
  decode 0b1100000001#10 = .illegal .emitData

/-- 30_encoding.md R40, R41, R46: decoding an encoded command gives it back, for every operand, and a word that
decodes to a command is that command's encoding. -/
def Obligations.DecodeAndEncodeAgree : Prop :=
  (∀ i : Instr, decode (encode i) = .command i) ∧
  (∀ (w : Cmd) (i : Instr), decode w = .command i → encode i = w)

/-- 30_encoding.md R48 (what an assembler rejects) and R49 (what the pseudo-instructions expand to), on the lines of
the text form; how the text is read is not stated here. -/
def Obligations.AssemblerExpandsAndRejects : Prop :=
  (∀ n : Nat, n ≤ 255 → assembleLine (.absorb n) = some [BitVec.ofNat 10 (0x200 + n)]) ∧
  (∀ n : Nat, 255 < n → assembleLine (.absorb n) = none) ∧
  (∀ n : Nat, n ≤ 0x3FF → assembleLine (.word n) = some [BitVec.ofNat 10 n]) ∧
  (∀ n : Nat, 0x3FF < n → assembleLine (.word n) = none) ∧
  (∀ ns : List Nat, (∀ n ∈ ns, n ≤ 255) →
    assembleLine (.absorbs ns) = some (ns.map fun n => BitVec.ofNat 10 (0x200 + n)) ∧
    assembleLine (.build ns) =
      some (0x100#10 :: (ns.map fun n => BitVec.ofNat 10 (0x200 + n)) ++ [0x300#10])) ∧
  (∀ ns : List Nat, (∃ n ∈ ns, 255 < n) →
    assembleLine (.absorbs ns) = none ∧ assembleLine (.build ns) = none)

/-! ### The step -/

/-- 00_scope.md R10, 30_encoding.md R43: a step runs the command the decoder reads from the host's word, at the state
in which the word is accepted: the host's queue and index moved on (log entries 1 and 4), nothing else changed. -/
def Obligations.StepRunsTheDecodedCommand : Prop :=
  ∀ (s : State) (w : Cmd) (rest : List HostEvent) (i : Instr),
    s.pending = .command w :: rest → decode w = .command i →
    step s = exec i { s with pending := rest, pc := s.pc + 1 }

/-- The host's two fixed names agree: the step after `withFetchWord` runs what `decodeTableWord` reads (log entry 8:
the model's choice of how a word is placed). -/
def Obligations.PlacedWordRunsNext : Prop :=
  ∀ (s : State) (nbits w : Nat) (i : Instr), decodeTableWord nbits w = some i →
    step (s.withFetchWord nbits w) = exec i { s with pc := s.pc + 1 }

/-- 40_accumulate.md R51: the dispatch with its fault gate, and totality. What is behind the gate is stated command
by command in the other statements; here each arm is gated and complete.
That it completes rests on R90's assumption that the consumer takes every byte of an EMIT (log entry 6). -/
def Obligations.DispatchIsTotalAndGated : Prop :=
  (∀ s : State, ∃ t, step s = .next t) ∧
  (∀ (i : Instr) (s : State), ∃ t, exec i s = .next t) ∧
  (∀ s : State, ∃ t, exec .clear s = .next t ∧ t.fault = 0#2) ∧
  (∀ (i : Instr) (s : State), i ≠ .clear → s.fault ≠ 0#2 → exec i s = .next s) ∧
  (∀ (r : Reserved) (s : State), s.fault ≠ 0#2 → execVerdict (.illegal r) s = .next s)

/-- 60_exceptions.md R79: between commands the block is idle with its state held. That an idle block's step answers
the same state is the model's choice (log entry 2). -/
def Obligations.IdleBlockHoldsItsState : Prop :=
  ∀ s : State, s.pending = [] → ∀ k : Nat, Sys2Proof.core.run k s = .next s

/-- 10_state.md R16, with the model's reading of it (log entries 1, 3 and 4): the index starts at 0, every command
advances it by exactly 1 whatever the word is, reset is no command, and no rule reads it. -/
def Obligations.HostIndexAdvancesByOne : Prop :=
  State.reset.pc = 0 ∧
  (∀ (s t : State) (w : Cmd) (rest : List HostEvent), s.pending = .command w :: rest → step s = .next t →
    t.pc = s.pc + 1 ∧ t.pending = rest) ∧
  (∀ (s t : State) (rest : List HostEvent), s.pending = .reset :: rest → step s = .next t →
    t.pc = s.pc ∧ t.pending = rest) ∧
  (∀ (s t : State) (n : Nat), step s = .next t → ∃ k, step { s with pc := n } = .next { t with pc := k })

/-- 20_memory.md R36: commands take effect one at a time in the host's order; running one sequence and then another
from where it ended is running them joined. -/
def Obligations.RunsComposeInOrder : Prop :=
  ∀ (s t : State) (xs ys : List HostEvent), runEvents s xs = .next t → runEvents s (xs ++ ys) = runEvents t ys

/-! ### Reset -/

/-- 10_state.md R25: the values after reset, the outputs, that CLEAR leaves the same, and that a reset inside a run
leaves `OUT` as it is. That the reset event is queued is the model's choice (log entry 3). -/
def Obligations.ResetLeavesTheClearedState : Prop :=
  (State.reset.sum = 0x00000000#32 ∧ State.reset.len = 0x00000000#32 ∧ State.reset.fault = 0#2 ∧
    State.reset.out = []) ∧
  (hdrMagic State.reset = 0x544F4F42#32 ∧ hdrSize State.reset = 0#32 ∧ hdrChecksum State.reset = 0#32 ∧
    faultOutput State.reset = 0#2) ∧
  (∀ (s : State) (rest : List HostEvent), s.pending = .reset :: rest →
    ∃ t, step s = .next t ∧ t.sum = 0#32 ∧ t.len = 0#32 ∧ t.fault = 0#2 ∧ t.out = s.out ∧
      hdrMagic t = 0x544F4F42#32 ∧ hdrSize t = 0#32 ∧ hdrChecksum t = 0#32 ∧ faultOutput t = 0#2) ∧
  (∀ s : State, ∃ t, exec .clear s = .next t ∧ t.sum = State.reset.sum ∧ t.len = State.reset.len ∧
    t.fault = State.reset.fault ∧ t.out = s.out)

/-- 70_reset_and_hazards.md R81 and R82: the whole effect of the reset event inside a run. That it is a step which
leaves the host's index is the model's choice (log entries 3 and 4). -/
def Obligations.ResetEventKeepsTheTrace : Prop :=
  ∀ (s : State) (rest : List HostEvent), s.pending = .reset :: rest →
    step s = .next { s with sum := 0#32, len := 0#32, fault := 0#2, pending := rest }

/-! ### CLEAR -/

/-- 40_accumulate.md R52: what CLEAR writes, in every state, and that nothing else changes; its word; that it is the
only command that clears `FAULT`; its corner cases. -/
def Obligations.ClearZeroesTheRegisters : Prop :=
  encode .clear = 0x100#10 ∧
  (∀ s : State, exec .clear s = .next { s with sum := 0#32, len := 0#32, fault := 0#2 }) ∧
  (∀ (i : Instr) (s t : State), exec i s = .next t → s.fault ≠ 0#2 → t.fault = 0#2 → i = .clear) ∧
  exec .clear State.reset = .next State.reset ∧
  (∀ s t : State, exec .clear s = .next t → exec .clear t = .next t)

/-! ### ABSORB -/

/-- 30_encoding.md R42: the operand of ABSORB is the data field, unsigned and zero-extended, and reaches the adder
neither scaled nor shifted. -/
def Obligations.AbsorbOperandIsTheUnsignedByte : Prop :=
  (∀ b : Byte, (byteOperand b).toNat = b.toNat) ∧
  (∀ (w : Cmd) (s : State), 0x200 ≤ w.toNat → w.toNat ≤ 0x2FF → s.fault = 0#2 → s.len ≠ 0xFFFFFFFF#32 →
    ∃ t, execVerdict (decode w) s = .next t ∧ t.sum.toNat = (s.sum.toNat + w.toNat % 256) % u32Modulus)

/-- 40_accumulate.md R53: ABSORB in each of its three cases, its whole next state, and its words. -/
def Obligations.AbsorbAddsAndCounts : Prop :=
  ∀ (b : Byte) (s : State),
    (encode (.absorb b)).toNat = 0x200 + b.toNat ∧
    (s.fault = 0#2 → s.len ≠ 0xFFFFFFFF#32 →
      exec (.absorb b) s =
        .next { s with sum := BitVec.ofNat 32 ((s.sum.toNat + b.toNat) % u32Modulus),
                       len := BitVec.ofNat 32 (s.len.toNat + 1) } ∧
      s.len.toNat + 1 < u32Modulus) ∧
    (s.fault = 0#2 → s.len = 0xFFFFFFFF#32 → exec (.absorb b) s = .next { s with fault := 1#2 }) ∧
    (s.fault ≠ 0#2 → exec (.absorb b) s = .next s)

/-- 40_accumulate.md R54: at full count the byte is dropped and recorded nowhere, and the last byte of an image of
2^32 - 1 bytes is absorbed without a fault. -/
def Obligations.AbsorbAtFullCountOverflows : Prop :=
  (∀ (b : Byte) (s : State), s.fault = 0#2 → s.len = 0xFFFFFFFF#32 →
    exec (.absorb b) s = .next { s with fault := 1#2 }) ∧
  (∀ (b c : Byte) (s : State), s.len = 0xFFFFFFFF#32 → exec (.absorb b) s = exec (.absorb c) s) ∧
  (∀ (b : Byte) (s : State), s.fault = 0#2 → s.len = 0xFFFFFFFE#32 →
    ∃ t, exec (.absorb b) s = .next t ∧ t.len = 0xFFFFFFFF#32 ∧ t.fault = 0#2)

/-- 40_accumulate.md R55: the adder, its wrap and when it wraps, and the exact count. -/
def Obligations.AdderDropsTheCarry : Prop :=
  (∀ (a : Word) (b : Byte), (add32 a b).toNat = (a.toNat + b.toNat) % u32Modulus) ∧
  (∀ (a : Word) (b : Byte), a.toNat + b.toNat < 2 * u32Modulus) ∧
  (∀ (a : Word) (b : Byte), (add32 a b).toNat ≠ a.toNat + b.toNat ↔ 0xFFFFFFFF - b.toNat < a.toNat) ∧
  (∀ n : Word, n ≠ 0xFFFFFFFF#32 → (n + 1#32).toNat = n.toNat + 1)

/-! ### EMIT and the frame -/

/-- 20_memory.md R28: the four bytes of a u32, least significant first. -/
def Obligations.FieldsAreLittleEndian : Prop :=
  (∀ v : Word, (le32 v).map BitVec.toNat =
    [v.toNat % 256, v.toNat / 256 % 256, v.toNat / 65536 % 256, v.toNat / 16777216]) ∧
  le32 0x544F4F42#32 = [0x42#8, 0x4F#8, 0x4F#8, 0x54#8] ∧
  le32 3#32 = [0x03#8, 0x00#8, 0x00#8, 0x00#8]

/-- 20_memory.md R30: the byte at each frame offset, and the offsets the rule names. -/
def Obligations.HeaderByteAtEachOffset : Prop :=
  (∀ (s : State) (f j : Nat) (hf : f < 3) (hj : j < 4),
    hdrByte s ⟨4 * f + j, by omega⟩ =
      (if f = 0 then 0x544F4F42#32 else if f = 1 then s.len else s.sum).extractLsb' (8 * j) 8) ∧
  (∀ s : State, hdrByte s 0 = 0x42#8 ∧ hdrByte s 1 = 0x4F#8 ∧ hdrByte s 2 = 0x4F#8 ∧ hdrByte s 3 = 0x54#8 ∧
    hdrByte s 4 = s.len.extractLsb' 0 8 ∧ hdrByte s 7 = s.len.extractLsb' 24 8 ∧
    hdrByte s 8 = s.sum.extractLsb' 0 8 ∧ hdrByte s 11 = s.sum.extractLsb' 24 8)

/-- 41_serialize.md R60: the 12 bytes of `pack`, in order; that the three values can be read back; the fixed first
four bytes; and that the frame is the list of the bytes at offsets 0 to 11. -/
def Obligations.PackIsTheTwelveByteFrame : Prop :=
  (∀ m n c : Word, pack m n c =
    [m.extractLsb' 0 8, m.extractLsb' 8 8, m.extractLsb' 16 8, m.extractLsb' 24 8,
     n.extractLsb' 0 8, n.extractLsb' 8 8, n.extractLsb' 16 8, n.extractLsb' 24 8,
     c.extractLsb' 0 8, c.extractLsb' 8 8, c.extractLsb' 16 8, c.extractLsb' 24 8]) ∧
  (∀ m n c : Word, (pack m n c).length = 12) ∧
  (∀ m n c m' n' c' : Word, pack m n c = pack m' n' c' → m = m' ∧ n = n' ∧ c = c') ∧
  (∀ n c : Word, (pack Config.magic n c).take 4 = [0x42#8, 0x4F#8, 0x4F#8, 0x54#8]) ∧
  (∀ s : State, pack Config.magic s.len s.sum = List.ofFn (hdrByte s))

/-- 41_serialize.md R59: EMIT with `FAULT` = 0 and with `FAULT` non-zero, its whole next state, its word, and the
corner cases: after CLEAR, twice in a row, and an ABSORB after it. -/
def Obligations.EmitAppendsTheFrame : Prop :=
  encode .emit = 0x300#10 ∧
  (∀ s : State, s.fault = 0#2 →
    exec .emit s = .next { s with out := s.out ++ pack 0x544F4F42#32 s.len s.sum }) ∧
  (∀ s : State, s.fault ≠ 0#2 → exec .emit s = .next s) ∧
  (∀ s t : State, exec .clear s = .next t →
    exec .emit t = .next { t with out := s.out ++
      [0x42#8, 0x4F#8, 0x4F#8, 0x54#8, 0#8, 0#8, 0#8, 0#8, 0#8, 0#8, 0#8, 0#8] }) ∧
  (∀ s t : State, s.fault = 0#2 → exec .emit s = .next t →
    exec .emit t = .next { s with out := s.out ++ pack 0x544F4F42#32 s.len s.sum ++ pack 0x544F4F42#32 s.len s.sum }) ∧
  (∀ (b : Byte) (s t : State), s.fault = 0#2 → s.len ≠ 0xFFFFFFFF#32 → exec .emit s = .next t →
    ∃ u, exec (.absorb b) t = .next u ∧ u.sum = add32 s.sum b ∧ u.len = s.len + 1#32 ∧ u.out = t.out)

/-- 41_serialize.md R62: EMIT while faulted appends nothing and changes no register, and the host can tell by the
number of bytes: 12 exactly when `FAULT` is 0. -/
def Obligations.EmitWhileFaultedProducesNothing : Prop :=
  (∀ s : State, s.fault ≠ 0#2 → exec .emit s = .next s) ∧
  (∀ s t : State, exec .emit s = .next t →
    (t.out.length = s.out.length + 12 ↔ s.fault = 0#2) ∧ (t.out.length < s.out.length + 12 ↔ s.fault ≠ 0#2))

/-- 10_state.md R20 and 20_memory.md R31: the level outputs show the state, and packing the three record outputs
gives exactly the bytes an EMIT at the same moment appends. -/
def Obligations.LevelOutputsShowTheState : Prop :=
  (∀ s : State, hdrMagic s = 0x544F4F42#32 ∧ hdrSize s = s.len ∧ hdrChecksum s = s.sum ∧ faultOutput s = s.fault) ∧
  (∀ s : State, headerRecord s = ⟨hdrMagic s, hdrSize s, hdrChecksum s⟩) ∧
  (∀ s t : State, s.fault = 0#2 → exec .emit s = .next t →
    t.out = s.out ++ pack (hdrMagic s) (hdrSize s) (hdrChecksum s))

/-! ### Faults -/

/-- 60_exceptions.md R67: each fault code is raised by its words under its condition and by nothing else, and the
faulting command has no effect but fault entry. That the host's queue and index move on is the model's choice (log
entries 1 and 4). -/
def Obligations.FaultsAreRaisedExactlyByTheirCauses : Prop :=
  ∀ (s t : State) (w : Cmd) (rest : List HostEvent),
    s.pending = .command w :: rest → s.fault = 0#2 → step s = .next t →
    (t.fault = 1#2 ↔ (∃ b, decode w = .command (.absorb b)) ∧ s.len = 0xFFFFFFFF#32) ∧
    (t.fault = 2#2 ↔ isReserved w = true) ∧
    t.fault ≠ 3#2 ∧
    (t.fault ≠ 0#2 → t = { s with fault := t.fault, pending := rest, pc := s.pc + 1 })

/-- 60_exceptions.md R72 and 10_state.md R17: `FAULT` becomes a new non-zero value only from 0, to the code of a
cause, and then no register and no byte of `OUT` changes. -/
def Obligations.FaultEntryWritesOnlyFault : Prop :=
  (∀ s : State, raise .lengthOverflow s = { s with fault := 1#2 } ∧ raise .illegalCommand s = { s with fault := 2#2 }) ∧
  (∀ s t : State, step s = .next t → t.fault ≠ s.fault → t.fault ≠ 0#2 →
    s.fault = 0#2 ∧ (t.fault = 1#2 ∨ t.fault = 2#2) ∧ t.sum = s.sum ∧ t.len = s.len ∧ t.out = s.out)

/-- 60_exceptions.md R73 and R71: while faulted only CLEAR acts; every other word, reserved ones too, leaves the
registers, the first fault's code and `OUT` as they are, and the outputs with them. That the host's queue and index
move on is the model's choice (log entries 1 and 4). -/
def Obligations.WhileFaultedOnlyClearActs : Prop :=
  ∀ (s : State) (w : Cmd) (rest : List HostEvent), s.pending = .command w :: rest → s.fault ≠ 0#2 →
    (w ≠ 0x100#10 → step s = .next { s with pending := rest, pc := s.pc + 1 }) ∧
    (w = 0x100#10 →
      step s = .next { s with sum := 0#32, len := 0#32, fault := 0#2, pending := rest, pc := s.pc + 1 })

/-- 60_exceptions.md R74: only CLEAR and reset end the faulted condition, both do, both zero `SUM` and `LEN`, and the
next fault after CLEAR is recorded afresh. -/
def Obligations.OnlyClearAndResetEndAFault : Prop :=
  (∀ s t : State, step s = .next t → s.fault ≠ 0#2 → t.fault = 0#2 →
    (∃ rest, s.pending = .command 0x100#10 :: rest ∨ s.pending = .reset :: rest) ∧ t.sum = 0#32 ∧ t.len = 0#32) ∧
  (∀ (s : State) (rest : List HostEvent), s.pending = .command 0x100#10 :: rest ∨ s.pending = .reset :: rest →
    ∃ t, step s = .next t ∧ t.fault = 0#2 ∧ t.sum = 0#32 ∧ t.len = 0#32) ∧
  (∀ (s : State) (w : Cmd), isReserved w = true →
    ∃ t, runEvents s (commands [0x100#10, w]) = .next t ∧ t.fault = 2#2)

/-! ### Whole-machine rules -/

/-- 10_state.md R13's column "written by", for `SUM` and `LEN`: only ABSORB, CLEAR and reset change them. -/
def Obligations.OnlyAbsorbClearAndResetWriteTheSum : Prop :=
  ∀ s t : State, step s = .next t → t.sum ≠ s.sum ∨ t.len ≠ s.len →
    ∃ rest, s.pending = .reset :: rest ∨
      ∃ w, s.pending = .command w :: rest ∧
        (decode w = .command .clear ∨ (s.fault = 0#2 ∧ ∃ b, decode w = .command (.absorb b)))

/-- 10_state.md R19: `OUT` starts empty, only an EMIT without fault appends to it, 12 bytes each time, nothing
removes bytes, and nothing reads it back: whatever it holds, the step does the same and appends the same. -/
def Obligations.OutIsAppendOnlyAndNeverRead : Prop :=
  State.reset.out = [] ∧
  (∀ s : State, ∃ (t : State) (added : List Byte), step s = .next t ∧ t.out = s.out ++ added ∧
    (∀ o : List Byte, step { s with out := o } = .next { t with out := o ++ added }) ∧
    (added ≠ [] → s.fault = 0#2 ∧ (∃ rest, s.pending = .command 0x300#10 :: rest) ∧ added.length = 12) ∧
    (s.fault = 0#2 → (∃ rest, s.pending = .command 0x300#10 :: rest) → added.length = 12))

/-- 10_state.md R15 ("`LEN` never wraps"): a step leaves `LEN` as it is, or adds exactly one as a number, or zeroes
it. -/
def Obligations.LenNeverWraps : Prop :=
  ∀ s t : State, step s = .next t →
    t.len = s.len ∨ t.len.toNat = s.len.toNat + 1 ∨
      (t.len = 0#32 ∧ ∃ rest, s.pending = .command 0x100#10 :: rest ∨ s.pending = .reset :: rest)

/-- 10_state.md R26 (a) and the framing of (d) hold at the start of a run. -/
def Obligations.InvariantHoldsAtReset : Prop := Inv State.reset

/-- 10_state.md R26 (a) and the framing of (d): every step keeps the invariant.
That every frame is whole rests on the assumptions of R82 and R90: no reset inside a frame, and a consumer that takes
every byte (log entry 6). -/
def Obligations.EveryStepKeepsTheInvariant : Prop := ∀ s t : State, Inv s → step s = .next t → Inv t

/-! ### The algorithm -/

/-- 40_accumulate.md R56: absorbing an image from the cleared state leaves its checksum and its length, and the rule's
consequences for the checksum function. That the host's queue is used up and its index moves on by one a byte is the
model's choice (log entries 1 and 4). -/
def Obligations.AbsorbingAnImageComputesItsChecksum : Prop :=
  (∀ (S : List Byte) (s : State), S.length ≤ Config.maxImageLen → s.sum = 0#32 → s.len = 0#32 → s.fault = 0#2 →
    runEvents s (commands (absorbsOf S)) =
      .next { s with sum := checksum S, len := BitVec.ofNat 32 S.length, pending := [], pc := s.pc + S.length }) ∧
  (∀ S : List Byte, (checksum S).toNat = (S.map BitVec.toNat).sum % u32Modulus) ∧
  checksum [] = 0#32 ∧
  (∀ S T : List Byte, S.Perm T → checksum S = checksum T) ∧
  (∀ S T : List Byte, (checksum (S ++ T)).toNat = ((checksum S).toNat + (checksum T).toNat) % u32Modulus) ∧
  (∀ S : List Byte, checksum (S ++ [0x00#8]) = checksum S) ∧
  (∀ S : List Byte, S.length ≤ 16843009 → (S.map BitVec.toNat).sum < u32Modulus) ∧
  u32Modulus ≤ ((List.replicate 16843010 0xFF#8).map BitVec.toNat).sum ∧
  checksum (List.replicate 16843010 0xFF#8) = 0x000000FE#32

/-- 41_serialize.md R64, the build law: from every state whatsoever CLEAR, the image, EMIT leaves the image's
checksum and length and appends exactly its frame; without the leading CLEAR the cleared registers are needed. That
the host's queue and index move on is the model's choice (log entries 1 and 4).
That it completes rests on R90's assumption that the consumer takes every byte of an EMIT (log entry 6). -/
def Obligations.BuildLawHoldsFromEveryState : Prop :=
  ∀ (S : List Byte) (s : State), S.length ≤ Config.maxImageLen →
    runEvents s (commands (buildOf S)) =
      .next { s with sum := checksum S, len := BitVec.ofNat 32 S.length, fault := 0#2,
                     out := s.out ++ pack 0x544F4F42#32 (BitVec.ofNat 32 S.length) (checksum S),
                     pending := [], pc := s.pc + (S.length + 2) } ∧
    (s.sum = 0#32 → s.len = 0#32 → s.fault = 0#2 →
      runEvents s (commands (absorbsOf S ++ [0x300#10])) =
        .next { s with sum := checksum S, len := BitVec.ofNat 32 S.length,
                       out := s.out ++ pack 0x544F4F42#32 (BitVec.ofNat 32 S.length) (checksum S),
                       pending := [], pc := s.pc + (S.length + 1) })

/-- 70_reset_and_hazards.md R89 with 40_accumulate.md R54: an image of 2^32 bytes or more never gets a header; the
block faults after 2^32 - 1 bytes and keeps what it had then. -/
def Obligations.OverlongImageGetsNoHeader : Prop :=
  ∀ (S : List Byte) (s : State), u32Modulus ≤ S.length →
    ∃ t, runEvents s (commands (buildOf S)) = .next t ∧ t.fault = 1#2 ∧ t.out = s.out ∧
      t.len = 0xFFFFFFFF#32 ∧ t.sum = checksum (S.take Config.maxImageLen)

/-- 70_reset_and_hazards.md R85: without CLEAR between two images the second header describes the concatenation of
both, and no fault tells.
That it completes rests on R90's assumption that the consumer takes every byte of an EMIT (log entry 6). -/
def Obligations.MissingClearJoinsTwoImages : Prop :=
  ∀ (S T : List Byte) (s : State), S.length + T.length ≤ Config.maxImageLen →
    ∃ t, runEvents s (commands (buildOf S ++ absorbsOf T ++ [0x300#10])) = .next t ∧ t.fault = 0#2 ∧
      t.out = s.out ++ frame (build S) ++ frame (build (S ++ T))

/-- 70_reset_and_hazards.md R93: a second block that absorbs the received payload shows the sender's size and
checksum exactly when the payload has the image's length and checksum. -/
def Obligations.ReceiverSideCheckComparesTheRecord : Prop :=
  ∀ (image payload : List Byte) (s t : State), image.length ≤ Config.maxImageLen →
    payload.length ≤ Config.maxImageLen →
    runEvents s (commands (encode .clear :: absorbsOf payload)) = .next t →
    ((hdrSize t = (build image).size ∧ hdrChecksum t = (build image).checksum) ↔
      (payload.length = image.length ∧ checksum payload = checksum image))

/-- 10_state.md R26 (b) and 41_serialize.md R63: whatever the host did since the registers were zero, if `FAULT` is 0
the registers and the record outputs describe exactly the bytes absorbed since the last CLEAR or reset, and those are
fewer than 2^32. -/
def Obligations.RecordDescribesTheBytesSinceClear : Prop :=
  ∀ (s t : State) (history : List HostEvent), s.sum = 0#32 → s.len = 0#32 → s.fault = 0#2 →
    runEvents s history = .next t → t.fault = 0#2 →
    (absorbedSince [] history).length ≤ Config.maxImageLen ∧
    t.len.toNat = (absorbedSince [] history).length ∧
    t.sum = checksum (absorbedSince [] history) ∧
    headerRecord t = build (absorbedSince [] history)

/-- 10_state.md R25: the state at the start of a run stands for the component at its start. -/
def Obligations.ResetRepresentsTheFreshComponent : Prop := Represents FrameBuilder.start State.reset

/-- 10_state.md R14, R15, R17 and R26: one step of the block is one event of the software component with unbounded
byte lists; the reset event and reserved words too. The component is `FrameBuilder` in Safety.lean, the
model's reading of these rules (log entry 13). That the host's queue moves on is the model's choice (log entry 1).
That it completes rests on R90's assumption that the consumer takes every byte of an EMIT (log entry 6). -/
def Obligations.BlockSimulatesTheComponent : Prop :=
  ∀ (a : FrameBuilder) (s : State) (e : HostEvent) (rest : List HostEvent),
    Represents a s → s.pending = e :: rest →
    ∃ t, step s = .next t ∧ Represents (a.event e) t ∧ t.pending = rest

/-- The same over whole runs, from every state that stands for a component: the block's frames are the frames of the
component's emitted images, in order, and the run ends with the host's sequence used up. The host's queue and
index, and that a reset after the last command belongs to the run, are the model's choice (log entries 1, 4 and 14).
That it completes rests on R90's assumption that the consumer takes every byte of an EMIT (log entry 6). -/
def Obligations.RunsSimulateTheComponent : Prop :=
  ∀ (a : FrameBuilder) (s : State) (history : List HostEvent), Represents a s →
    ∃ t, runEvents s history = .next t ∧ Represents (history.foldl FrameBuilder.event a) t ∧ runEnded t ∧
      t.pc = s.pc + (history.filter isCommand).length
end

