-- ==== Sys2Proof/Laws/Decode.lean ====
section
/-! SUPPORT. The fields of a command word and its encodings, as numbers. -/

namespace Sys2Proof

/-- Field `op` is the word's number divided by 256. -/
theorem opField_toNat (w : Cmd) : (opField w).toNat = w.toNat / 256 := by
  have hw : w.toNat < 2 ^ 10 := w.isLt
  rw [opField, BitVec.extractLsb'_toNat, Nat.shiftRight_eq_div_pow]
  omega

/-- Field `data` is the word's number modulo 256. -/
theorem dataField_toNat (w : Cmd) : (dataField w).toNat = w.toNat % 256 := by
  simp [dataField, BitVec.extractLsb'_toNat]

@[simp] theorem encode_clear : encode .clear = 0x100#10 := rfl

@[simp] theorem encode_emit : encode .emit = 0x300#10 := rfl

/-- The encoding of an ABSORB as a number: `word = op * 256 + data` (30_encoding.md R40). -/
theorem encode_absorb_toNat (b : Byte) : (encode (.absorb b)).toNat = 2 * 256 + b.toNat := by
  rw [encode, BitVec.toNat_append, ← Nat.shiftLeft_add_eq_or_of_lt b.isLt]
  rfl

@[simp] theorem absorbsOf_nil : absorbsOf [] = [] := rfl

@[simp] theorem absorbsOf_cons (b : Byte) (image : List Byte) :
    absorbsOf (b :: image) = encode (.absorb b) :: absorbsOf image := rfl

theorem absorbsOf_append (s t : List Byte) : absorbsOf (s ++ t) = absorbsOf s ++ absorbsOf t :=
  List.map_append

@[simp] theorem absorbsOf_length (image : List Byte) : (absorbsOf image).length = image.length := by
  simp [absorbsOf]

end Sys2Proof
end

