-- ==== Sys2Proof/Laws/State.lean ====
section
/-! SUPPORT. What each named update of the state leaves in each field. -/

namespace Sys2Proof.Machine

/-! ### raise -/

@[simp] theorem raise_sum (c : FaultCause) (s : State) : (raise c s).sum = s.sum := rfl
@[simp] theorem raise_len (c : FaultCause) (s : State) : (raise c s).len = s.len := rfl
@[simp] theorem raise_fault (c : FaultCause) (s : State) : (raise c s).fault = c.code := rfl
@[simp] theorem raise_out (c : FaultCause) (s : State) : (raise c s).out = s.out := rfl
@[simp] theorem raise_pending (c : FaultCause) (s : State) : (raise c s).pending = s.pending := rfl
@[simp] theorem raise_pc (c : FaultCause) (s : State) : (raise c s).pc = s.pc := rfl

/-! ### clearRegisters -/

@[simp] theorem clearRegisters_sum (s : State) : (clearRegisters s).sum = 0#32 := rfl
@[simp] theorem clearRegisters_len (s : State) : (clearRegisters s).len = 0#32 := rfl
@[simp] theorem clearRegisters_fault (s : State) : (clearRegisters s).fault = 0#2 := rfl
@[simp] theorem clearRegisters_out (s : State) : (clearRegisters s).out = s.out := rfl
@[simp] theorem clearRegisters_pending (s : State) : (clearRegisters s).pending = s.pending := rfl
@[simp] theorem clearRegisters_pc (s : State) : (clearRegisters s).pc = s.pc := rfl

/-! ### addAndCount -/

@[simp] theorem addAndCount_sum (b : Byte) (s : State) : (addAndCount b s).sum = add32 s.sum b := rfl
@[simp] theorem addAndCount_len (b : Byte) (s : State) : (addAndCount b s).len = s.len + 1#32 := rfl
@[simp] theorem addAndCount_fault (b : Byte) (s : State) : (addAndCount b s).fault = s.fault := rfl
@[simp] theorem addAndCount_out (b : Byte) (s : State) : (addAndCount b s).out = s.out := rfl
@[simp] theorem addAndCount_pending (b : Byte) (s : State) : (addAndCount b s).pending = s.pending := rfl
@[simp] theorem addAndCount_pc (b : Byte) (s : State) : (addAndCount b s).pc = s.pc := rfl

/-! ### appendOut -/

@[simp] theorem appendOut_sum (bytes : List Byte) (s : State) : (appendOut bytes s).sum = s.sum := rfl
@[simp] theorem appendOut_len (bytes : List Byte) (s : State) : (appendOut bytes s).len = s.len := rfl
@[simp] theorem appendOut_fault (bytes : List Byte) (s : State) : (appendOut bytes s).fault = s.fault := rfl
@[simp] theorem appendOut_out (bytes : List Byte) (s : State) : (appendOut bytes s).out = s.out ++ bytes := rfl
@[simp] theorem appendOut_pending (bytes : List Byte) (s : State) : (appendOut bytes s).pending = s.pending := rfl
@[simp] theorem appendOut_pc (bytes : List Byte) (s : State) : (appendOut bytes s).pc = s.pc := rfl

/-! ### emitFrame -/

@[simp] theorem emitFrame_sum (s : State) : (emitFrame s).sum = s.sum := rfl
@[simp] theorem emitFrame_len (s : State) : (emitFrame s).len = s.len := rfl
@[simp] theorem emitFrame_fault (s : State) : (emitFrame s).fault = s.fault := rfl
@[simp] theorem emitFrame_out (s : State) : (emitFrame s).out = s.out ++ pack Config.magic s.len s.sum := rfl
@[simp] theorem emitFrame_pending (s : State) : (emitFrame s).pending = s.pending := rfl
@[simp] theorem emitFrame_pc (s : State) : (emitFrame s).pc = s.pc := rfl

/-! ### acceptCommand -/

@[simp] theorem acceptCommand_sum (rest : List HostEvent) (s : State) : (acceptCommand rest s).sum = s.sum := rfl
@[simp] theorem acceptCommand_len (rest : List HostEvent) (s : State) : (acceptCommand rest s).len = s.len := rfl
@[simp] theorem acceptCommand_fault (rest : List HostEvent) (s : State) : (acceptCommand rest s).fault = s.fault := rfl
@[simp] theorem acceptCommand_out (rest : List HostEvent) (s : State) : (acceptCommand rest s).out = s.out := rfl
@[simp] theorem acceptCommand_pending (rest : List HostEvent) (s : State) : (acceptCommand rest s).pending = rest := rfl
@[simp] theorem acceptCommand_pc (rest : List HostEvent) (s : State) : (acceptCommand rest s).pc = s.pc + 1 := rfl

/-! ### acceptReset -/

@[simp] theorem acceptReset_sum (rest : List HostEvent) (s : State) : (acceptReset rest s).sum = 0#32 := rfl
@[simp] theorem acceptReset_len (rest : List HostEvent) (s : State) : (acceptReset rest s).len = 0#32 := rfl
@[simp] theorem acceptReset_fault (rest : List HostEvent) (s : State) : (acceptReset rest s).fault = 0#2 := rfl
@[simp] theorem acceptReset_out (rest : List HostEvent) (s : State) : (acceptReset rest s).out = s.out := rfl
@[simp] theorem acceptReset_pending (rest : List HostEvent) (s : State) : (acceptReset rest s).pending = rest := rfl
@[simp] theorem acceptReset_pc (rest : List HostEvent) (s : State) : (acceptReset rest s).pc = s.pc := rfl

/-! ### offerCommand -/

@[simp] theorem offerCommand_sum (w : Cmd) (s : State) : (offerCommand w s).sum = s.sum := rfl
@[simp] theorem offerCommand_len (w : Cmd) (s : State) : (offerCommand w s).len = s.len := rfl
@[simp] theorem offerCommand_fault (w : Cmd) (s : State) : (offerCommand w s).fault = s.fault := rfl
@[simp] theorem offerCommand_out (w : Cmd) (s : State) : (offerCommand w s).out = s.out := rfl
@[simp] theorem offerCommand_pending (w : Cmd) (s : State) : (offerCommand w s).pending = .command w :: s.pending := rfl
@[simp] theorem offerCommand_pc (w : Cmd) (s : State) : (offerCommand w s).pc = s.pc := rfl

end Sys2Proof.Machine
end

