-- ==== Sys2Proof/Laws/Ops.lean ====
section
/-! SUPPORT. One lemma for each shared operation, which says all it can do. -/

namespace Sys2Proof.Machine

/-! ### The fault gate -/

@[simp] theorem faulted_eq_true_iff (s : State) : s.faulted = true ↔ s.fault ≠ 0#2 := by
  simp [State.faulted]

@[simp] theorem faulted_eq_false_iff (s : State) : s.faulted = false ↔ s.fault = 0#2 := by
  simp [State.faulted]

@[simp] theorem lenFull_eq_true_iff (s : State) : s.lenFull = true ↔ s.len = 0xFFFFFFFF#32 := by
  simp [State.lenFull]

/-- Behind the gate an operation runs with `FAULT` = 0. -/
theorem gate_of_unfaulted (f : State → State) {s : State} (h : s.fault = 0#2) : gate f s = f s := by
  simp [gate, h]

/-- Behind the gate nothing changes with `FAULT` non-zero. -/
theorem gate_of_faulted (f : State → State) {s : State} (h : s.fault ≠ 0#2) : gate f s = s :=
  if_pos ((faulted_eq_true_iff s).mpr h)

/-- All that a gated operation can do. -/
theorem gate_cases (f : State → State) (s : State) :
    (s.fault = 0#2 ∧ gate f s = f s) ∨ (s.fault ≠ 0#2 ∧ gate f s = s) := by
  by_cases h : s.fault = 0#2
  · exact .inl ⟨h, gate_of_unfaulted f h⟩
  · exact .inr ⟨h, gate_of_faulted f h⟩

/-! ### Absorbing a byte -/

theorem absorbByte_of_full (b : Byte) {s : State} (h : s.len = 0xFFFFFFFF#32) :
    absorbByte b s = raise .lengthOverflow s := by
  simp [absorbByte, h]

theorem absorbByte_of_room (b : Byte) {s : State} (h : s.len ≠ 0xFFFFFFFF#32) :
    absorbByte b s = addAndCount b s := by
  simp [absorbByte, h]

/-- All that absorbing a byte can do with `FAULT` = 0. -/
theorem absorbByte_cases (b : Byte) (s : State) :
    (s.len = 0xFFFFFFFF#32 ∧ absorbByte b s = raise .lengthOverflow s) ∨
      (s.len ≠ 0xFFFFFFFF#32 ∧ absorbByte b s = addAndCount b s) := by
  by_cases h : s.len = 0xFFFFFFFF#32
  · exact .inl ⟨h, absorbByte_of_full b h⟩
  · exact .inr ⟨h, absorbByte_of_room b h⟩

/-- The adder on numbers. -/
theorem add32_toNat (a : Word) (b : Byte) : (add32 a b).toNat = (a.toNat + b.toNat) % 2 ^ 32 := by
  have hb : b.toNat < 2 ^ 8 := b.isLt
  have hz : (byteOperand b).toNat = b.toNat := by
    rw [byteOperand, BitVec.toNat_setWidth]
    omega
  simp [add32, BitVec.toNat_add, hz]

/-- A counter that is not full counts exactly. -/
theorem len_succ_toNat {n : Word} (h : n ≠ 0xFFFFFFFF#32) : (n + 1#32).toNat = n.toNat + 1 := by
  bv_omega

/-! ### Bytes of a frame -/

@[simp] theorem le32_length (v : Word) : (le32 v).length = 4 := rfl

@[simp] theorem pack_length (m n c : Word) : (pack m n c).length = Config.hdrLen := rfl

/-! ### Decoding -/

@[simp] theorem isReserved_iff (w : Cmd) : isReserved w = true ↔ ∃ r, decode w = .illegal r := by
  unfold isReserved
  split <;> simp_all

/-- All that the decoder can answer (30_encoding.md R46). -/
theorem decode_cases (w : Cmd) :
    (w = 0x100#10 ∧ decode w = .command .clear) ∨
      (opField w = 0b10#2 ∧ decode w = .command (.absorb (dataField w))) ∨
      (w = 0x300#10 ∧ decode w = .command .emit) ∨
      (w ≠ 0x100#10 ∧ opField w ≠ 0b10#2 ∧ w ≠ 0x300#10 ∧ decode w = .illegal (reservedRange w)) := by
  unfold decode
  by_cases h1 : w = 0x100#10
  · exact .inl ⟨h1, by rw [if_pos h1]⟩
  by_cases h2 : opField w = 0b10#2
  · exact .inr (.inl ⟨h2, by rw [if_neg h1, if_pos h2]⟩)
  by_cases h3 : w = 0x300#10
  · exact .inr (.inr (.inl ⟨h3, by rw [if_neg h1, if_neg h2, if_pos h3]⟩))
  · exact .inr (.inr (.inr ⟨h1, h2, h3, by rw [if_neg h1, if_neg h2, if_neg h3]⟩))

end Sys2Proof.Machine
end

