-- ==== Sys2Proof/Laws/PerInstr.lean ====
section
/-! SUPPORT. Statements about every command as syntax, one lemma per constructor. -/

namespace Sys2Proof.Laws.TableRow

/-- The command's word selects the command's own row of the opcode map: `w AND mask = match` (30_encoding.md R41). -/
def Statement (i : Instr) : Prop := encode i &&& tableMask i = tableMatch i

theorem clear : Statement .clear := rfl

theorem absorb (b : Byte) : Statement (.absorb b) := by
  simp only [Statement, encode, tableMask, tableMatch]
  ext k hk
  simp only [BitVec.getElem_and, BitVec.getElem_append]
  by_cases h : k < 8
  · have : k = 0 ∨ k = 1 ∨ k = 2 ∨ k = 3 ∨ k = 4 ∨ k = 5 ∨ k = 6 ∨ k = 7 := by omega
    rcases this with rfl | rfl | rfl | rfl | rfl | rfl | rfl | rfl <;> simp
  · have : k = 8 ∨ k = 9 := by omega
    rcases this with rfl | rfl <;> simp

theorem emit : Statement .emit := rfl

end Sys2Proof.Laws.TableRow
end

