-- ==== Sys2Proof/Laws/Safety.lean ====
section
/-! SUPPORT. Small lemmas of the terms claims are made in. -/

namespace Sys2Proof.Safety

open Sys2Proof.Machine

@[simp] theorem checksum_nil : checksum [] = 0#32 := rfl

/-- One more byte is one addition of the block's adder. -/
theorem checksum_snoc (image : List Byte) (b : Byte) : checksum (image ++ [b]) = add32 (checksum image) b := by
  rw [← BitVec.toNat_inj, add32_toNat]
  simp [checksum]

@[simp] theorem frame_build (image : List Byte) :
    frame (build image) = pack Config.magic (BitVec.ofNat 32 image.length) (checksum image) := rfl

theorem framed_nil : framed [] := ⟨[], rfl⟩

/-- A frame at the end keeps the trace a sequence of frames. -/
theorem framed_append {out : List Byte} (h : framed out) (n c : Word) : framed (out ++ pack Config.magic n c) := by
  obtain ⟨snapshots, rfl⟩ := h
  exact ⟨snapshots ++ [(n, c)], by simp⟩

@[simp] theorem commands_nil : commands [] = [] := rfl

@[simp] theorem commands_cons (w : Cmd) (ws : List Cmd) : commands (w :: ws) = .command w :: commands ws := rfl

theorem commands_append (ws vs : List Cmd) : commands (ws ++ vs) = commands ws ++ commands vs := List.map_append

@[simp] theorem commands_length (ws : List Cmd) : (commands ws).length = ws.length := by
  simp [commands]

end Sys2Proof.Safety
end

