-- ==== Sys2Proof/Laws/Step.lean ====
section
/-! SUPPORT. What one step can do, said once, and how a run of events unfolds. -/

namespace Sys2Proof.Machine

/-! ### One equation for each thing the host can do next -/

theorem step_of_idle {s : State} (h : s.pending = []) : step s = .next s := by
  simp [step, h]

theorem step_of_reset {s : State} {rest : List HostEvent} (h : s.pending = .reset :: rest) :
    step s = .next (acceptReset rest s) := by
  simp [step, h]

theorem step_of_command {s : State} {w : Cmd} {rest : List HostEvent} (h : s.pending = .command w :: rest) :
    step s = execVerdict (decode w) (acceptCommand rest s) := by
  simp [step, h]

/-- The state in which the gated operation of a verdict leaves the block (40_accumulate.md R51). -/
def afterVerdict (v : Verdict) (s : State) : State :=
  match v with
  | .command .clear => clearRegisters s
  | .command (.absorb b) => gate (absorbByte b) s
  | .command .emit => gate emitFrame s
  | .illegal _ => gate (raise .illegalCommand) s

/-- A command, and a reserved word, always completes. -/
theorem execVerdict_eq (v : Verdict) (s : State) : execVerdict v s = .next (afterVerdict v s) := by
  match v with
  | .command .clear => rfl
  | .command (.absorb _) => rfl
  | .command .emit => rfl
  | .illegal _ => rfl

@[simp] theorem afterVerdict_pending (v : Verdict) (s : State) : (afterVerdict v s).pending = s.pending := by
  unfold afterVerdict gate absorbByte
  split <;> (try split) <;> (try split) <;> rfl

@[simp] theorem afterVerdict_pc (v : Verdict) (s : State) : (afterVerdict v s).pc = s.pc := by
  unfold afterVerdict gate absorbByte
  split <;> (try split) <;> (try split) <;> rfl

/-- All that a command word can do to the registers and the trace. -/
theorem afterVerdict_cases (v : Verdict) (s : State) :
    (v = .command .clear ∧ afterVerdict v s = clearRegisters s) ∨
      (s.fault ≠ 0#2 ∧ v ≠ .command .clear ∧ afterVerdict v s = s) ∨
      (s.fault = 0#2 ∧ ∃ b, v = .command (.absorb b) ∧ s.len = 0xFFFFFFFF#32 ∧
        afterVerdict v s = raise .lengthOverflow s) ∨
      (s.fault = 0#2 ∧ ∃ b, v = .command (.absorb b) ∧ s.len ≠ 0xFFFFFFFF#32 ∧
        afterVerdict v s = addAndCount b s) ∨
      (s.fault = 0#2 ∧ v = .command .emit ∧ afterVerdict v s = emitFrame s) ∨
      (s.fault = 0#2 ∧ ∃ r, v = .illegal r ∧ afterVerdict v s = raise .illegalCommand s) := by
  match v with
  | .command .clear => exact .inl ⟨rfl, rfl⟩
  | .command (.absorb b) =>
    obtain ⟨h, hg⟩ | ⟨h, hg⟩ := gate_cases (absorbByte b) s
    · obtain ⟨hl, ha⟩ | ⟨hl, ha⟩ := absorbByte_cases b s
      · exact .inr (.inr (.inl ⟨h, b, rfl, hl, hg.trans ha⟩))
      · exact .inr (.inr (.inr (.inl ⟨h, b, rfl, hl, hg.trans ha⟩)))
    · exact .inr (.inl ⟨h, by simp, hg⟩)
  | .command .emit =>
    obtain ⟨h, hg⟩ | ⟨h, hg⟩ := gate_cases emitFrame s
    · exact .inr (.inr (.inr (.inr (.inl ⟨h, rfl, hg⟩))))
    · exact .inr (.inl ⟨h, by simp, hg⟩)
  | .illegal r =>
    obtain ⟨h, hg⟩ | ⟨h, hg⟩ := gate_cases (raise .illegalCommand) s
    · exact .inr (.inr (.inr (.inr (.inr ⟨h, r, rfl, hg⟩))))
    · exact .inr (.inl ⟨h, by simp, hg⟩)

/-- All that a step can do (40_accumulate.md R51). -/
theorem step_cases {s t : State} (h : step s = .next t) :
    (s.pending = [] ∧ t = s) ∨
      (∃ rest, s.pending = .reset :: rest ∧ t = acceptReset rest s) ∨
      (∃ w rest, s.pending = .command w :: rest ∧ t = afterVerdict (decode w) (acceptCommand rest s)) := by
  match hp : s.pending with
  | [] =>
    rw [step_of_idle hp] at h
    exact .inl ⟨rfl, by injection h with h; exact h.symm⟩
  | .reset :: rest =>
    rw [step_of_reset hp] at h
    exact .inr (.inl ⟨rest, rfl, by injection h with h; exact h.symm⟩)
  | .command w :: rest =>
    rw [step_of_command hp, execVerdict_eq] at h
    exact .inr (.inr ⟨w, rest, rfl, by injection h with h; exact h.symm⟩)

end Sys2Proof.Machine

namespace Sys2Proof.Safety

open Sys2Proof.Machine

/-! ### Runs of events -/

@[simp] theorem withEvents_sum (s : State) (es : List HostEvent) : (withEvents s es).sum = s.sum := rfl
@[simp] theorem withEvents_len (s : State) (es : List HostEvent) : (withEvents s es).len = s.len := rfl
@[simp] theorem withEvents_fault (s : State) (es : List HostEvent) : (withEvents s es).fault = s.fault := rfl
@[simp] theorem withEvents_out (s : State) (es : List HostEvent) : (withEvents s es).out = s.out := rfl
@[simp] theorem withEvents_pending (s : State) (es : List HostEvent) : (withEvents s es).pending = es := rfl
@[simp] theorem withEvents_pc (s : State) (es : List HostEvent) : (withEvents s es).pc = s.pc := rfl

/-- No event, no step. -/
theorem runEvents_nil (s : State) : runEvents s [] = .next (withEvents s []) := rfl

/-- The first event is one step, and the rest runs from there. -/
theorem runEvents_cons {s t : State} {e : HostEvent} {es : List HostEvent}
    (h : step (withEvents s (e :: es)) = .next t) (hp : t.pending = es) : runEvents s (e :: es) = runEvents t es := by
  have ht : withEvents t es = t := by
    subst hp
    rfl
  have hs : Sys2Proof.core.step (withEvents s (e :: es)) = .next t := h
  have hr : runEvents s (e :: es) = Sys2Proof.core.run es.length t := by
    simp only [runEvents, List.length_cons, Host.Core.run]
    rw [hs]
  rw [hr, runEvents, ht]

/-- A command word at the head of a run. -/
theorem runEvents_command (s : State) (w : Cmd) (es : List HostEvent) :
    runEvents s (.command w :: es) = runEvents (afterVerdict (decode w) (acceptCommand es s)) es := by
  refine runEvents_cons ?_ (by simp)
  rw [step_of_command rfl, execVerdict_eq]
  rfl

/-- The reset event at the head of a run. -/
theorem runEvents_reset (s : State) (es : List HostEvent) :
    runEvents s (.reset :: es) = runEvents (acceptReset es s) es := by
  refine runEvents_cons ?_ (by simp)
  rw [step_of_reset rfl]
  rfl

end Sys2Proof.Safety
end

