-- ==== Sys2Proof/Tests/Slice0.lean ====
section
/-! SUPPORT. The model's own tests. Expected values are those of 95_test_vectors.md, or worked by hand from the rule
a comment names; the witnesses at the end meet the hypotheses of the statements of the same name. -/

namespace Sys2Proof.Tests

open Sys2Proof.Machine Sys2Proof.Safety

/-- A small state: the three registers, one byte in `OUT`, and what the host has yet to issue. -/
def small (sum len : Word) (fault : FaultCode) (pending : List HostEvent) : State where
  sum := sum
  len := len
  fault := fault
  out := [0xAA#8]
  pending := pending
  pc := 7

/-- The registers and the trace after one step, when there is a next state. -/
def seen (o : Host.Outcome State Fault Refusal) : Option (Word × Word × FaultCode × List Byte) :=
  match o with
  | .next t => some (t.sum, t.len, t.fault, t.out)
  | .fault _ => none
  | .refused _ => none

/-! ### Decoding: words written out bit by bit from 30_encoding.md R40 and R41 (vectors: section 2) -/

theorem test_decode_clear : decode 0b0100000000#10 = .command .clear := by decide
theorem test_decode_absorb_low : decode 0b1000000001#10 = .command (.absorb 0x01#8) := by decide
theorem test_decode_absorb_high : decode 0b1010000000#10 = .command (.absorb 0x80#8) := by decide
theorem test_decode_emit : decode 0b1100000000#10 = .command .emit := by decide
theorem test_decode_zero_word_is_reserved : decode 0x000#10 = .illegal .opZero := by decide
theorem test_decode_clear_with_data_is_reserved : decode 0x180#10 = .illegal .clearData := by decide
theorem test_decode_emit_with_data_is_reserved : decode 0x3FF#10 = .illegal .emitData := by decide

theorem test_decodeTableWord : decodeTableWord 16 0x2FF = some (.absorb 0xFF#8) := by decide
theorem test_decodeTableWord_refuses_wide_numbers : decodeTableWord 16 0x500 = none := by decide

/-! ### The assembler's checks: an ill-formed line for each (30_encoding.md R48) -/

theorem test_wf_refuses_byte_256 : (AsmLine.absorb 256).wf = false := by decide
theorem test_wf_refuses_word_0x400 : (AsmLine.word 0x400).wf = false := by decide
theorem test_wf_refuses_byte_256_in_absorbs : (AsmLine.absorbs [0, 256]).wf = false := by decide
theorem test_wf_refuses_byte_300_in_build : (AsmLine.build [1, 300, 2]).wf = false := by decide
theorem test_wf_takes_the_bounds : (AsmLine.build [0, 255]).wf = true ∧ (AsmLine.word 0x3FF).wf = true := by decide

/-- The first two lines of program P1, and a reserved word with a comment (program P4). -/
theorem test_assemble_text :
    assemble ['C', 'l', 'e', 'a', 'r', ' ', ';', 'x', '\n', 'a', 'b', 's', 'o', 'r', 'b', ' ', '0', 'x', '0', '1',
      '\n', '.', 'w', 'o', 'r', 'd', ' ', '0', 'x', '0', '0', '0', '\n'] = some [0x100#10, 0x201#10, 0x000#10] := by
  decide

/-- `build` of two bytes, one decimal and one hexadecimal (30_encoding.md R49). -/
theorem test_assemble_build :
    assemble ['b', 'u', 'i', 'l', 'd', ' ', '2', '5', '5', ',', ' ', '0', 'x', '1', '0'] =
      some [0x100#10, 0x2FF#10, 0x210#10, 0x300#10] := by
  decide

/-! ### Steps (vectors: sections 3 to 6) -/

theorem test_clear_while_faulted :
    seen (step (small 0xFFFFFFFF#32 0xFFFFFFFF#32 1#2 [.command 0x100#10])) = some (0#32, 0#32, 0#2, [0xAA#8]) := by
  decide

/-- A wrap: no saturation, no sign extension. -/
theorem test_absorb_wraps :
    seen (step (small 0xFFFFFFFE#32 0x01010101#32 0#2 [.command 0x2FF#10])) =
      some (0x000000FD#32, 0x01010102#32, 0#2, [0xAA#8]) := by
  decide

theorem test_absorb_at_full_count :
    seen (step (small 0x12345678#32 0xFFFFFFFF#32 0#2 [.command 0x200#10])) =
      some (0x12345678#32, 0xFFFFFFFF#32, 1#2, [0xAA#8]) := by
  decide

/-- Every byte lane distinct. -/
theorem test_emit_lanes :
    seen (step (small 0x0D0C0B0A#32 0x04030201#32 0#2 [.command 0x300#10])) =
      some (0x0D0C0B0A#32, 0x04030201#32, 0#2,
        [0xAA#8, 0x42#8, 0x4F#8, 0x4F#8, 0x54#8, 0x01#8, 0x02#8, 0x03#8, 0x04#8, 0x0A#8, 0x0B#8, 0x0C#8, 0x0D#8]) := by
  decide

theorem test_emit_while_faulted :
    seen (step (small 6#32 3#32 2#2 [.command 0x300#10])) = some (6#32, 3#32, 2#2, [0xAA#8]) := by decide

theorem test_reserved_word_faults :
    seen (step (small 0x10#32 1#32 0#2 [.command 0x101#10])) = some (0x10#32, 1#32, 2#2, [0xAA#8]) := by decide

theorem test_first_fault_is_kept :
    seen (step (small 0x10#32 1#32 1#2 [.command 0x000#10])) = some (0x10#32, 1#32, 1#2, [0xAA#8]) := by decide

theorem test_reset_event :
    seen (step (small 0x10#32 1#32 1#2 [.reset])) = some (0#32, 0#32, 0#2, [0xAA#8]) := by decide

theorem test_placed_word_runs_from_reset :
    seen (step (State.reset.withFetchWord 16 0x201)) = some (1#32, 1#32, 0#2, []) := by decide

theorem test_hdrByte :
    hdrByte (small 0x0D0C0B0A#32 0x04030201#32 0#2 []) 7 = 0x04#8 ∧
      hdrByte (small 0x0D0C0B0A#32 0x04030201#32 0#2 []) 8 = 0x0A#8 := by decide

/-- "`42 4F 4F 54`": 4 bytes, checksum 0x134. -/
theorem test_checksum : checksum [0x42#8, 0x4F#8, 0x4F#8, 0x54#8] = 0x134#32 := by decide

/-! ### Witnesses: concrete inputs that meet a statement's hypotheses together -/

theorem witness_DecodeIsTotalAndFollowsTheMap :
    opField 0x200#10 = 0b10#2 ∧ opField 0x2FF#10 = 0b10#2 ∧
      ∀ w ∈ [0x000#10, 0x0FF#10, 0x101#10, 0x1FF#10, 0x301#10, 0x3FF#10],
        w ≠ 0x100#10 ∧ opField w ≠ 0b10#2 ∧ w ≠ 0x300#10 := by decide

theorem witness_ReservedWordsRaiseIllegalCommand :
    (∀ w ∈ [0x000#10, 0x0FF#10, 0x101#10, 0x1FF#10, 0x301#10, 0x3FF#10], isReserved w = true) ∧
      (small 0x10#32 1#32 0#2 [.command 0x000#10]).pending = [.command 0x000#10] ∧
      (small 0x10#32 1#32 0#2 [.command 0x000#10]).fault = 0#2 := by decide

theorem witness_DecodeAndEncodeAgree :
    decode 0x2FF#10 = .command (.absorb 0xFF#8) ∧ decode 0x100#10 = .command .clear ∧
      decode 0x300#10 = .command .emit := by decide

theorem witness_AssemblerExpandsAndRejects :
    (255 ≤ 255 ∧ 255 < 256 ∧ 0x3FF ≤ 0x3FF ∧ 0x3FF < 0x400) ∧ (∀ n ∈ [0, 255], n ≤ 255) ∧
      ∃ n ∈ [0, 256], 255 < n := by
  decide

theorem witness_StepRunsTheDecodedCommand :
    (small 0#32 0#32 0#2 [.command 0x280#10, .reset]).pending = .command 0x280#10 :: [.reset] ∧
      decode 0x280#10 = .command (.absorb 0x80#8) := by decide

theorem witness_PlacedWordRunsNext : decodeTableWord 16 0x300 = some .emit := by decide

theorem witness_DispatchIsTotalAndGated : Instr.emit ≠ .clear ∧ (small 6#32 3#32 2#2 []).fault ≠ 0#2 := by decide

theorem witness_IdleBlockHoldsItsState : (small 6#32 3#32 2#2 []).pending = [] := by decide

theorem witness_HostIndexAdvancesByOne :
    (∃ t, step (small 6#32 3#32 2#2 [.command 0x3FF#10]) = .next t) ∧
      ∃ t, step (small 6#32 3#32 2#2 [.reset]) = .next t := ⟨⟨_, rfl⟩, ⟨_, rfl⟩⟩

theorem witness_RunsComposeInOrder :
    ∃ t, runEvents State.reset (commands [0x100#10, 0x201#10]) = .next t := ⟨_, rfl⟩

theorem witness_ResetLeavesTheClearedState : (small 6#32 3#32 2#2 [.reset]).pending = [.reset] := by decide

theorem witness_ResetEventKeepsTheTrace :
    (small 6#32 3#32 2#2 [.reset, .command 0x300#10]).pending = .reset :: [.command 0x300#10] := by decide

theorem witness_ClearZeroesTheRegisters :
    ∃ t, exec .clear (small 6#32 3#32 2#2 []) = .next t ∧ (small 6#32 3#32 2#2 []).fault ≠ 0#2 ∧ t.fault = 0#2 :=
  ⟨_, rfl, by decide, by decide⟩

/-- The bounds of the ABSORB words, with room for a byte. -/
theorem witness_AbsorbOperandIsTheUnsignedByte :
    (∀ w ∈ [0x200#10, 0x2FF#10], 0x200 ≤ w.toNat ∧ w.toNat ≤ 0x2FF) ∧
      (small 0#32 0#32 0#2 []).fault = 0#2 ∧ (small 0#32 0#32 0#2 []).len ≠ 0xFFFFFFFF#32 := by decide

/-- One state for each of the three cases; the last count with room is the boundary of the first two. -/
theorem witness_AbsorbAddsAndCounts :
    ((small 0#32 0xFFFFFFFE#32 0#2 []).fault = 0#2 ∧ (small 0#32 0xFFFFFFFE#32 0#2 []).len ≠ 0xFFFFFFFF#32) ∧
      ((small 0#32 0xFFFFFFFF#32 0#2 []).fault = 0#2 ∧ (small 0#32 0xFFFFFFFF#32 0#2 []).len = 0xFFFFFFFF#32) ∧
      (small 0#32 0xFFFFFFFF#32 1#2 []).fault ≠ 0#2 := by decide

theorem witness_AbsorbAtFullCountOverflows :
    ((small 0#32 0xFFFFFFFF#32 0#2 []).fault = 0#2 ∧ (small 0#32 0xFFFFFFFF#32 0#2 []).len = 0xFFFFFFFF#32) ∧
      (small 0#32 0xFFFFFFFE#32 0#2 []).fault = 0#2 ∧ (small 0#32 0xFFFFFFFE#32 0#2 []).len = 0xFFFFFFFE#32 := by
  decide

theorem witness_AdderDropsTheCarry : 0xFFFFFFFE#32 ≠ 0xFFFFFFFF#32 := by decide

/-- The first and the last offset of a field, and the last field. -/
theorem witness_HeaderByteAtEachOffset : (0 < 3 ∧ 3 < 4) ∧ (2 < 3 ∧ 0 < 4) := by decide

theorem witness_PackIsTheTwelveByteFrame : pack 1#32 2#32 3#32 = pack 1#32 2#32 3#32 := rfl

theorem witness_EmitAppendsTheFrame :
    (small 6#32 3#32 0#2 []).fault = 0#2 ∧ (small 6#32 3#32 2#2 []).fault ≠ 0#2 ∧
      (∃ t, exec .clear (small 6#32 3#32 2#2 []) = .next t) ∧
      (small 6#32 3#32 0#2 []).len ≠ 0xFFFFFFFF#32 ∧ ∃ t, exec .emit (small 6#32 3#32 0#2 []) = .next t :=
  ⟨by decide, by decide, ⟨_, rfl⟩, by decide, ⟨_, rfl⟩⟩

theorem witness_EmitWhileFaultedProducesNothing :
    (small 6#32 3#32 3#2 []).fault ≠ 0#2 ∧ (∃ t, exec .emit (small 6#32 3#32 3#2 []) = .next t) ∧
      ∃ t, exec .emit (small 6#32 3#32 0#2 []) = .next t :=
  ⟨by decide, ⟨_, rfl⟩, ⟨_, rfl⟩⟩

theorem witness_LevelOutputsShowTheState :
    (small 6#32 3#32 0#2 []).fault = 0#2 ∧ ∃ t, exec .emit (small 6#32 3#32 0#2 []) = .next t :=
  ⟨by decide, ⟨_, rfl⟩⟩

/-- A fault of each code, and a command that raises none. -/
theorem witness_FaultsAreRaisedExactlyByTheirCauses :
    (∃ t, step (small 0#32 0xFFFFFFFF#32 0#2 [.command 0x200#10]) = .next t ∧ t.fault = 1#2) ∧
      (∃ t, step (small 0#32 0xFFFFFFFF#32 0#2 [.command 0x3FF#10]) = .next t ∧ t.fault = 2#2) ∧
      ∃ t, step (small 0#32 0xFFFFFFFE#32 0#2 [.command 0x200#10]) = .next t ∧ t.fault = 0#2 :=
  ⟨⟨_, rfl, by decide⟩, ⟨_, rfl, by decide⟩, ⟨_, rfl, by decide⟩⟩

theorem witness_FaultEntryWritesOnlyFault :
    ∃ t, step (small 0#32 0xFFFFFFFF#32 0#2 [.command 0x201#10]) = .next t ∧
      t.fault ≠ (small 0#32 0xFFFFFFFF#32 0#2 [.command 0x201#10]).fault ∧ t.fault ≠ 0#2 :=
  ⟨_, rfl, by decide, by decide⟩

theorem witness_WhileFaultedOnlyClearActs :
    (small 6#32 3#32 2#2 [.command 0x220#10]).pending = [.command 0x220#10] ∧
      (small 6#32 3#32 2#2 [.command 0x100#10]).pending = [.command 0x100#10] ∧
      (small 6#32 3#32 2#2 []).fault ≠ 0#2 ∧ 0x220#10 ≠ 0x100#10 := by decide

theorem witness_OnlyClearAndResetEndAFault :
    (∃ t, step (small 6#32 3#32 2#2 [.command 0x100#10]) = .next t ∧ t.fault = 0#2) ∧
      (∃ t, step (small 6#32 3#32 2#2 [.reset]) = .next t ∧ t.fault = 0#2) ∧
      (small 6#32 3#32 2#2 []).fault ≠ 0#2 ∧ isReserved 0x301#10 = true :=
  ⟨⟨_, rfl, by decide⟩, ⟨_, rfl, by decide⟩, by decide, by decide⟩

theorem witness_OnlyAbsorbClearAndResetWriteTheSum :
    ∃ t, step (small 6#32 3#32 0#2 [.command 0x201#10]) = .next t ∧
      (t.sum ≠ (small 6#32 3#32 0#2 [.command 0x201#10]).sum ∨
        t.len ≠ (small 6#32 3#32 0#2 [.command 0x201#10]).len) :=
  ⟨_, rfl, by decide⟩

theorem witness_OutIsAppendOnlyAndNeverRead :
    (small 6#32 3#32 0#2 [.command 0x300#10]).fault = 0#2 ∧
      ∃ rest, (small 6#32 3#32 0#2 [.command 0x300#10]).pending = .command 0x300#10 :: rest :=
  ⟨by decide, [], by decide⟩

theorem witness_LenNeverWraps :
    ∃ t, step (small 6#32 0xFFFFFFFF#32 0#2 [.command 0x201#10]) = .next t := ⟨_, rfl⟩

theorem witness_EveryStepKeepsTheInvariant :
    Inv (withEvents State.reset (commands [0x300#10])) ∧
      ∃ t, step (withEvents State.reset (commands [0x300#10])) = .next t :=
  ⟨⟨by decide, [], rfl⟩, ⟨_, rfl⟩⟩

/-- The longest image, the two lengths of the no-wrap clause at its bound, and the cleared registers. -/
theorem witness_AbsorbingAnImageComputesItsChecksum :
    (List.replicate Config.maxImageLen 0xFF#8).length ≤ Config.maxImageLen ∧
      (State.reset.sum = 0#32 ∧ State.reset.len = 0#32 ∧ State.reset.fault = 0#2) ∧
      List.Perm [0x01#8, 0x02#8, 0x03#8] [0x03#8, 0x01#8, 0x02#8] ∧
      (List.replicate 16843009 0xFF#8).length ≤ 16843009 :=
  ⟨by rw [List.length_replicate], by decide, by decide, by rw [List.length_replicate]⟩

theorem witness_BuildLawHoldsFromEveryState :
    (List.replicate Config.maxImageLen 0xFF#8).length ≤ Config.maxImageLen ∧ State.reset.sum = 0#32 ∧
      State.reset.len = 0#32 ∧ State.reset.fault = 0#2 :=
  ⟨by rw [List.length_replicate], by decide⟩

theorem witness_OverlongImageGetsNoHeader : u32Modulus ≤ (List.replicate u32Modulus 0x00#8).length := by
  rw [List.length_replicate]

theorem witness_MissingClearJoinsTwoImages :
    (List.replicate 1 0xAA#8).length + (List.replicate (Config.maxImageLen - 1) 0x55#8).length ≤
      Config.maxImageLen := by
  rw [List.length_replicate, List.length_replicate]
  decide

theorem witness_ReceiverSideCheckComparesTheRecord :
    [0x01#8, 0x02#8].length ≤ Config.maxImageLen ∧ [0x02#8, 0x01#8].length ≤ Config.maxImageLen ∧
      ∃ t, runEvents (small 6#32 3#32 2#2 []) (commands (encode .clear :: absorbsOf [0x02#8, 0x01#8])) = .next t :=
  ⟨by decide, by decide, ⟨_, rfl⟩⟩

/-- A history with a fault inside it that CLEAR ends. -/
theorem witness_RecordDescribesTheBytesSinceClear :
    (State.reset.sum = 0#32 ∧ State.reset.len = 0#32 ∧ State.reset.fault = 0#2) ∧
      ∃ t, runEvents State.reset (commands [0x210#10, 0x000#10, 0x100#10, 0x220#10]) = .next t ∧ t.fault = 0#2 :=
  ⟨by decide, ⟨_, rfl, by decide⟩⟩

theorem witness_BlockSimulatesTheComponent :
    Represents FrameBuilder.start (withEvents State.reset [.command 0x2FF#10]) ∧
      (withEvents State.reset [.command 0x2FF#10]).pending = .command 0x2FF#10 :: [] :=
  ⟨⟨rfl, rfl, rfl, rfl⟩, rfl⟩

/-- A component in mid-transfer, with one header already emitted. -/
theorem witness_RunsSimulateTheComponent :
    Represents ⟨[0x01#8, 0x02#8], none, [[0x01#8]]⟩
      { State.reset with sum := 3#32, len := 2#32,
                         out := [0x42#8, 0x4F#8, 0x4F#8, 0x54#8, 1#8, 0#8, 0#8, 0#8, 1#8, 0#8, 0#8, 0#8] } :=
  ⟨by decide, by decide, rfl, by decide⟩

end Sys2Proof.Tests
end

section
/-! PROOFS. The family of 10_state.md: `OUT` (R19), the level outputs (R20) and the state after reset (R25). -/

namespace Sys2Proof.Machine

/-! ### What a command's outcome is -/

/-- Every command completes, in the state its verdict leaves (40_accumulate.md R51). -/
theorem exec_eq (i : Instr) (s : State) : exec i s = .next (afterVerdict (.command i) s) :=
  execVerdict_eq (.command i) s

theorem exec_clear (s : State) : exec .clear s = .next (clearRegisters s) :=
  exec_eq .clear s

theorem exec_emit_of_unfaulted {s : State} (h : s.fault = 0#2) : exec .emit s = .next (emitFrame s) := by
  rw [exec_eq, afterVerdict, gate_of_unfaulted emitFrame h]

/-- `EMIT` is one word, not a range (30_encoding.md R41). -/
theorem decode_eq_emit_iff (w : Cmd) : decode w = .command .emit ↔ w = 0x300#10 := by
  constructor
  · intro h
    obtain ⟨-, hd⟩ | ⟨-, hd⟩ | ⟨hw, -⟩ | ⟨-, -, -, hd⟩ := decode_cases w
    · simp [hd] at h
    · simp [hd] at h
    · exact hw
    · simp [hd] at h
  · rintro rfl
    decide

/-! ### The level outputs -/

@[simp] theorem hdrMagic_eq (s : State) : hdrMagic s = 0x544F4F42#32 := rfl
@[simp] theorem hdrSize_eq (s : State) : hdrSize s = s.len := rfl
@[simp] theorem hdrChecksum_eq (s : State) : hdrChecksum s = s.sum := rfl
@[simp] theorem faultOutput_eq (s : State) : faultOutput s = s.fault := rfl

/-! ### The same state with another trace -/

/-- The state with other contents of `OUT`: only a step that reads `OUT` back could tell it from `s`
(10_state.md R19). -/
def withOut (o : List Byte) (s : State) : State := { s with out := o }

@[simp] theorem withOut_fault (o : List Byte) (s : State) : (withOut o s).fault = s.fault := rfl
@[simp] theorem withOut_len (o : List Byte) (s : State) : (withOut o s).len = s.len := rfl
@[simp] theorem withOut_out (o : List Byte) (s : State) : (withOut o s).out = o := rfl
@[simp] theorem withOut_pending (o : List Byte) (s : State) : (withOut o s).pending = s.pending := rfl

theorem withOut_self (s : State) : withOut s.out s = s := rfl

/-- A gated operation that reads no `OUT` and appends `bytes` appends them with `FAULT` = 0 and nothing otherwise. -/
theorem gate_withOut {f : State → State} {bytes o : List Byte} {s : State}
    (h : f (withOut o s) = withOut (o ++ bytes) (f s)) :
    gate f (withOut o s) = withOut (o ++ if s.fault = 0#2 then bytes else []) (gate f s) := by
  by_cases hf : s.fault = 0#2
  · rw [gate_of_unfaulted f hf, gate_of_unfaulted f (by simpa using hf), h, if_pos hf]
  · rw [gate_of_faulted f hf, gate_of_faulted f (by simpa using hf), if_neg hf, List.append_nil]

/-- The gate adds no use of `OUT` to an operation that neither reads nor writes it. -/
theorem gate_withOut_of_silent {f : State → State} {o : List Byte} {s : State}
    (h : f (withOut o s) = withOut o (f s)) : gate f (withOut o s) = withOut o (gate f s) := by
  simpa using gate_withOut (f := f) (bytes := []) (by simpa using h)

/-- Absorbing a byte neither reads nor writes `OUT`, whether it counts the byte or overflows. -/
theorem absorbByte_withOut (b : Byte) (o : List Byte) (s : State) :
    absorbByte b (withOut o s) = withOut o (absorbByte b s) := by
  by_cases hl : s.len = 0xFFFFFFFF#32
  · rw [absorbByte_of_full b hl, absorbByte_of_full b (by simpa using hl)]
    rfl
  · rw [absorbByte_of_room b hl, absorbByte_of_room b (by simpa using hl)]
    rfl

/-! ### What a step appends -/

/-- The bytes a verdict appends to `OUT` (10_state.md R19). -/
def verdictBytes (v : Verdict) (s : State) : List Byte :=
  if s.fault = 0#2 ∧ v = .command .emit then pack Config.magic s.len s.sum else []

/-- The bytes a step appends to `OUT`: one frame when the host issues EMIT with `FAULT` = 0 (10_state.md R19). -/
def stepBytes (s : State) : List Byte :=
  if s.fault = 0#2 ∧ s.pending.head? = some (.command 0x300#10) then pack Config.magic s.len s.sum else []

theorem verdictBytes_emit (s : State) :
    verdictBytes (.command .emit) s = if s.fault = 0#2 then pack Config.magic s.len s.sum else [] := by
  simp [verdictBytes]

theorem verdictBytes_of_ne_emit {v : Verdict} (h : v ≠ .command .emit) (s : State) : verdictBytes v s = [] :=
  if_neg fun hv => h hv.2

/-- A verdict does the same to the rest of the state, and appends the same bytes, whatever `OUT` holds. -/
theorem afterVerdict_withOut (v : Verdict) (o : List Byte) (s : State) :
    afterVerdict v (withOut o s) = withOut (o ++ verdictBytes v s) (afterVerdict v s) := by
  by_cases hv : v = .command .emit
  · subst hv
    rw [verdictBytes_emit]
    exact gate_withOut rfl
  · rw [verdictBytes_of_ne_emit hv, List.append_nil]
    match v with
    | .command .clear => rfl
    | .command (.absorb b) => exact gate_withOut_of_silent (absorbByte_withOut b o s)
    | .command .emit => exact absurd rfl hv
    | .illegal _ => exact gate_withOut_of_silent rfl

theorem stepBytes_of_idle {s : State} (h : s.pending = []) : stepBytes s = [] := by
  simp [stepBytes, h]

theorem stepBytes_of_reset {s : State} {rest : List HostEvent} (h : s.pending = .reset :: rest) :
    stepBytes s = [] := by
  simp [stepBytes, h]

theorem stepBytes_of_command {s : State} {w : Cmd} {rest : List HostEvent} (h : s.pending = .command w :: rest) :
    stepBytes s = verdictBytes (decode w) (acceptCommand rest s) := by
  simp [stepBytes, verdictBytes, h, decode_eq_emit_iff]

/-- A step appends bytes exactly for an EMIT issued with `FAULT` = 0. -/
theorem stepBytes_ne_nil_iff (s : State) :
    stepBytes s ≠ [] ↔ s.fault = 0#2 ∧ ∃ rest, s.pending = .command 0x300#10 :: rest := by
  rw [← List.head?_eq_some_iff, stepBytes]
  split
  case isTrue h => exact iff_of_true (List.cons_ne_nil _ _) h
  case isFalse h => exact iff_of_false (fun hne => hne rfl) h

/-- What a step appends is nothing or one whole frame. -/
theorem stepBytes_length_of_ne_nil {s : State} (h : stepBytes s ≠ []) : (stepBytes s).length = 12 := by
  rw [stepBytes] at h ⊢
  split at h
  case isTrue hc => rw [if_pos hc, pack_length, Config.hdrLen]
  case isFalse => exact absurd rfl h

/-- Every step completes, and with any other `OUT` does the same to the rest of the state and appends the same bytes
(10_state.md R19). -/
theorem step_withOut (s : State) :
    ∃ t, step s = .next t ∧ ∀ o, step (withOut o s) = .next (withOut (o ++ stepBytes s) t) := by
  match hp : s.pending with
  | [] =>
    refine ⟨s, step_of_idle hp, fun o => ?_⟩
    rw [step_of_idle (s := withOut o s) hp, stepBytes_of_idle hp, List.append_nil]
  | .reset :: rest =>
    refine ⟨acceptReset rest s, step_of_reset hp, fun o => ?_⟩
    rw [step_of_reset (s := withOut o s) hp, stepBytes_of_reset hp, List.append_nil]
    rfl
  | .command w :: rest =>
    refine ⟨afterVerdict (decode w) (acceptCommand rest s), by rw [step_of_command hp, execVerdict_eq], fun o => ?_⟩
    have ha : acceptCommand rest (withOut o s) = withOut o (acceptCommand rest s) := rfl
    rw [step_of_command (s := withOut o s) hp, execVerdict_eq, ha, afterVerdict_withOut, stepBytes_of_command hp]

/-- A step keeps `OUT` and appends `stepBytes` to it. -/
theorem step_out {s t : State} (h : step s = .next t) : t.out = s.out ++ stepBytes s := by
  obtain ⟨u, -, hall⟩ := step_withOut s
  have hself := hall s.out
  rw [withOut_self, h] at hself
  injection hself with ht
  rw [ht, withOut_out]

/-! ### The obligations -/

/-- Settles O31: `stepBytes` is what the step appends, whatever `OUT` holds. -/
theorem outIsAppendOnlyAndNeverRead : Obligations.OutIsAppendOnlyAndNeverRead := by
  refine ⟨rfl, fun s => ?_⟩
  obtain ⟨t, ht, hall⟩ := step_withOut s
  refine ⟨t, stepBytes s, ht, step_out ht, hall, fun hne => ?_, fun hf he => ?_⟩
  · obtain ⟨hf, he⟩ := (stepBytes_ne_nil_iff s).mp hne
    exact ⟨hf, he, stepBytes_length_of_ne_nil hne⟩
  · exact stepBytes_length_of_ne_nil ((stepBytes_ne_nil_iff s).mpr ⟨hf, he⟩)

/-- Settles O13: reset and CLEAR both leave what `clearRegisters` leaves. -/
theorem resetLeavesTheClearedState : Obligations.ResetLeavesTheClearedState := by
  refine ⟨⟨rfl, rfl, rfl, rfl⟩, ⟨rfl, rfl, rfl, rfl⟩, fun s rest hp => ?_, fun s => ?_⟩
  · exact ⟨acceptReset rest s, step_of_reset hp, by simp⟩
  · exact ⟨clearRegisters s, exec_clear s, by simp [State.reset]⟩

/-- Settles O25: the outputs are the registers, and EMIT packs the registers. -/
theorem levelOutputsShowTheState : Obligations.LevelOutputsShowTheState := by
  refine ⟨fun s => by simp, fun s => rfl, fun s t hf he => ?_⟩
  rw [exec_emit_of_unfaulted hf] at he
  injection he with ht
  subst ht
  exact emitFrame_out s

end Sys2Proof.Machine
end

section
/-! PROOFS. The family of 20_memory.md: the byte order of a field (R28) and the byte at each frame offset (R30). -/

namespace Sys2Proof.Machine

/-! ### The bytes of a u32 -/

/-- Byte `j` of a u32 as a number, byte 0 the least significant (20_memory.md R28). -/
theorem byte_toNat (v : Word) (j : Nat) : (v.extractLsb' (8 * j) 8).toNat = v.toNat / 256 ^ j % 256 := by
  rw [BitVec.extractLsb'_toNat, Nat.shiftRight_eq_div_pow, Nat.pow_mul]

/-- The last byte is the whole quotient: nothing of a u32 lies above it. -/
theorem topByte_toNat (v : Word) : (v.extractLsb' 24 8).toNat = v.toNat / 16777216 := by
  have hv : v.toNat < 2 ^ 32 := v.isLt
  have hq : v.toNat / 16777216 < 256 := by omega
  exact (byte_toNat v 3).trans (Nat.mod_eq_of_lt hq)

/-- A field's bytes as numbers, in the order in which they are produced (20_memory.md R28). -/
theorem le32_map_toNat (v : Word) : (le32 v).map BitVec.toNat =
    [v.toNat % 256, v.toNat / 256 % 256, v.toNat / 65536 % 256, v.toNat / 16777216] := by
  have h0 : (v.extractLsb' 0 8).toNat = v.toNat % 256 :=
    (byte_toNat v 0).trans (by rw [Nat.pow_zero, Nat.div_one])
  have h1 : (v.extractLsb' 8 8).toNat = v.toNat / 256 % 256 := byte_toNat v 1
  have h2 : (v.extractLsb' 16 8).toNat = v.toNat / 65536 % 256 := byte_toNat v 2
  simp only [le32, List.map_cons, List.map_nil, h0, h1, h2, topByte_toNat]

/-! ### The bytes of a frame -/

/-- Offset `4 * f + j` lies in field `f` (20_memory.md R29). -/
theorem hdrField_of_offset (s : State) (f : Fin 3) (j : Fin 4) :
    hdrField s ⟨4 * f + j, by omega⟩ =
      if f.val = 0 then Config.magic else if f.val = 1 then s.len else s.sum := by
  have hdiv : (4 * f.val + j.val) / 4 = f.val := by omega
  rw [hdrField, hdiv]

/-- Offset `4 * f + j` holds byte `j` of field `f` (20_memory.md R30). -/
theorem hdrByte_of_offset (s : State) (f : Fin 3) (j : Fin 4) :
    hdrByte s ⟨4 * f + j, by omega⟩ =
      (if f.val = 0 then Config.magic else if f.val = 1 then s.len else s.sum).extractLsb' (8 * j) 8 := by
  have hmod : (4 * f.val + j.val) % 4 = j.val := by omega
  rw [hdrByte, hdrField_of_offset, hmod]

/-- The first four bytes are the constant's, in every state (20_memory.md R30). -/
theorem hdrByte_magic (s : State) (j : Fin 4) :
    hdrByte s ⟨j, by omega⟩ = Config.magic.extractLsb' (8 * j) 8 := by
  simpa using hdrByte_of_offset s 0 j

/-! ### The obligations -/

/-- Settles O20: the bytes of every u32 as numbers, and the two worked values. -/
theorem fieldsAreLittleEndian : Obligations.FieldsAreLittleEndian :=
  ⟨le32_map_toNat, by decide, by decide⟩

/-- Settles O21: each offset the rule names is one field and one byte number of `hdrByte_of_offset`. -/
theorem headerByteAtEachOffset : Obligations.HeaderByteAtEachOffset := by
  refine ⟨fun s f j hf hj => hdrByte_of_offset s ⟨f, hf⟩ ⟨j, hj⟩, fun s => ?_⟩
  have magicAt := hdrByte_magic s
  have byteAt := hdrByte_of_offset s
  exact ⟨magicAt 0, magicAt 1, magicAt 2, magicAt 3, byteAt 1 0, byteAt 1 3, byteAt 2 0, byteAt 2 3⟩

end Sys2Proof.Machine
end

section
/-! PROOFS. The family of 30_encoding.md: the opcode map (R41), ABSORB's operand (R42) and the decoder (R46). -/

namespace Sys2Proof.Machine

/-! ### The decoder on each row -/

/-- A word with `op` = 10 is an ABSORB of its data field, whatever that is (30_encoding.md R41). -/
theorem decode_of_absorbOp {w : Cmd} (h : opField w = 0b10#2) :
    decode w = .command (.absorb (dataField w)) := by
  have hw : w ≠ 0x100#10 := by
    rintro rfl
    exact absurd h (by decide)
  rw [decode, if_neg hw, if_pos h]

/-- The words with `op` = 10 as a range of numbers (30_encoding.md R41). -/
theorem opField_eq_absorb_iff (w : Cmd) : opField w = 0b10#2 ↔ 0x200 ≤ w.toNat ∧ w.toNat ≤ 0x2FF := by
  rw [← BitVec.toNat_inj, opField_toNat, BitVec.toNat_ofNat]
  omega

theorem opField_encode_absorb (b : Byte) : opField (encode (.absorb b)) = 0b10#2 := by
  have hb : b.toNat < 2 ^ 8 := b.isLt
  rw [opField_eq_absorb_iff, encode_absorb_toNat]
  omega

theorem dataField_encode_absorb (b : Byte) : dataField (encode (.absorb b)) = b := by
  have hb : b.toNat < 2 ^ 8 := b.isLt
  rw [← BitVec.toNat_inj, dataField_toNat, encode_absorb_toNat]
  omega

/-- A word with `op` = 10 is put together again from its data field. -/
theorem encode_absorb_dataField {w : Cmd} (h : opField w = 0b10#2) : encode (.absorb (dataField w)) = w := by
  rw [opField_eq_absorb_iff] at h
  rw [← BitVec.toNat_inj, encode_absorb_toNat, dataField_toNat]
  omega

theorem decode_encode (i : Instr) : decode (encode i) = .command i := by
  match i with
  | .clear => decide
  | .absorb b => rw [decode_of_absorbOp (opField_encode_absorb b), dataField_encode_absorb]
  | .emit => decide

theorem encode_of_decode {w : Cmd} {i : Instr} (h : decode w = .command i) : encode i = w := by
  obtain ⟨hw, hd⟩ | ⟨hop, hd⟩ | ⟨hw, hd⟩ | ⟨-, -, -, hd⟩ := decode_cases w <;> rw [hd] at h <;> cases h
  · exact hw.symm
  · exact encode_absorb_dataField hop
  · exact hw.symm

/-- Each command is read from exactly one word, its encoding (30_encoding.md R41, R46). -/
theorem decode_eq_command_iff (w : Cmd) (i : Instr) : decode w = .command i ↔ w = encode i := by
  constructor
  · exact fun h => (encode_of_decode h).symm
  · rintro rfl
    exact decode_encode i

theorem decode_eq_clear_iff (w : Cmd) : decode w = .command .clear ↔ w = 0x100#10 :=
  decode_eq_command_iff w .clear

theorem decode_eq_absorb_iff (w : Cmd) (b : Byte) :
    decode w = .command (.absorb b) ↔ w.toNat = 0x200 + b.toNat := by
  rw [decode_eq_command_iff, ← BitVec.toNat_inj, encode_absorb_toNat]

theorem exists_decode_eq_absorb_iff (w : Cmd) :
    (∃ b, decode w = .command (.absorb b)) ↔ opField w = 0b10#2 := by
  constructor
  · rintro ⟨b, hb⟩
    rw [← encode_of_decode hb, opField_encode_absorb]
  · exact fun h => ⟨dataField w, decode_of_absorbOp h⟩

/-- A word is reserved exactly when it is on no row (30_encoding.md R45). -/
theorem isReserved_iff_no_row (w : Cmd) :
    isReserved w = true ↔ ¬ (w = 0x100#10 ∨ opField w = 0b10#2 ∨ w = 0x300#10) := by
  rw [isReserved_iff]
  constructor
  · rintro ⟨r, hr⟩ hrow
    rw [← decode_eq_clear_iff, ← exists_decode_eq_absorb_iff, ← decode_eq_emit_iff, hr] at hrow
    simp at hrow
  · intro hrow
    obtain ⟨h, -⟩ | ⟨h, -⟩ | ⟨h, -⟩ | ⟨-, -, -, hd⟩ := decode_cases w
    · exact absurd (.inl h) hrow
    · exact absurd (.inr (.inl h)) hrow
    · exact absurd (.inr (.inr h)) hrow
    · exact ⟨reservedRange w, hd⟩

/-! ### The masks of the opcode map -/

/-- The mask of CLEAR and EMIT keeps the whole word. -/
theorem and_wordMask (w : Cmd) : w &&& 0x3FF#10 = w :=
  BitVec.and_allOnes

/-- The mask of ABSORB keeps `op` and drops `data`. -/
theorem and_opMask_toNat (w : Cmd) : (w &&& 0x300#10).toNat = w.toNat / 256 * 256 := by
  have hw : w.toNat < 2 ^ 10 := w.isLt
  have hshift : w &&& 0x300#10 = w >>> 8 <<< 8 :=
    (BitVec.shiftLeft_ushiftRight (x := w) (n := 8)).symm
  rw [hshift, BitVec.toNat_shiftLeft, BitVec.toNat_ushiftRight, Nat.shiftRight_eq_div_pow, Nat.shiftLeft_eq]
  omega

/-- Mask and match of the ABSORB row select the words with `op` = 10 (30_encoding.md R41). -/
theorem and_opMask_eq_iff (w : Cmd) : w &&& 0x300#10 = 0x200#10 ↔ opField w = 0b10#2 := by
  rw [opField_eq_absorb_iff, ← BitVec.toNat_inj, and_opMask_toNat, BitVec.toNat_ofNat]
  omega

/-! ### ABSORB on its operand -/

theorem byteOperand_toNat (b : Byte) : (byteOperand b).toNat = b.toNat :=
  BitVec.toNat_setWidth_of_le (by decide)

/-- With `FAULT` = 0 and room in `LEN`, ABSORB adds and counts its byte (40_accumulate.md R53). -/
theorem exec_absorb_of_room (b : Byte) {s : State} (hf : s.fault = 0#2) (hl : s.len ≠ 0xFFFFFFFF#32) :
    exec (.absorb b) s = .next (addAndCount b s) := by
  rw [exec_eq, afterVerdict, gate_of_unfaulted _ hf, absorbByte_of_room b hl]

/-! ### The obligations -/

/-- Settles O2: with the masks read as conditions on the fields, each row is one command's encodings. -/
theorem opcodeMapSelectsTheRows : Obligations.OpcodeMapSelectsTheRows := by
  intro w
  rw [and_wordMask, and_opMask_eq_iff, exists_decode_eq_absorb_iff, decode_eq_clear_iff, decode_eq_emit_iff]
  have toNat_eq (v : Cmd) : w = v ↔ w.toNat = v.toNat := BitVec.toNat_inj.symm
  exact ⟨.rfl, .rfl, .rfl, toNat_eq 0x100#10, opField_eq_absorb_iff w, decode_eq_absorb_iff w, toNat_eq 0x300#10,
    isReserved_iff_no_row w⟩

/-- Settles O1: one verdict for each row, and for the words on no row. -/
theorem decodeIsTotalAndFollowsTheMap : Obligations.DecodeIsTotalAndFollowsTheMap := by
  refine fun w => ⟨(decode_eq_clear_iff w).mpr, decode_of_absorbOp, (decode_eq_emit_iff w).mpr, fun hc ha he => ?_⟩
  rw [← isReserved_iff, isReserved_iff_no_row]
  rintro (h | h | h)
  · exact hc h
  · exact ha h
  · exact he h

/-- Settles O16: the words of the ABSORB row carry their low 8 bits to the adder as a number. -/
theorem absorbOperandIsTheUnsignedByte : Obligations.AbsorbOperandIsTheUnsignedByte := by
  refine ⟨byteOperand_toNat, fun w s hlo hhi hf hl => ⟨addAndCount (dataField w) s, ?_, ?_⟩⟩
  · rw [decode_of_absorbOp ((opField_eq_absorb_iff w).mpr ⟨hlo, hhi⟩)]
    exact exec_absorb_of_room (dataField w) hf hl
  · rw [addAndCount_sum, ← dataField_toNat]
    exact add32_toNat s.sum (dataField w)

end Sys2Proof.Machine
end

section
/-! PROOFS. The family of 40_accumulate.md: CLEAR (R52), ABSORB in its three cases (R53, R54) and the adder (R55). -/

namespace Sys2Proof.Machine

/-! ### CLEAR -/

/-- With `FAULT` non-zero every command but CLEAR does nothing (40_accumulate.md R51). -/
theorem exec_of_faulted {i : Instr} {s : State} (hi : i ≠ .clear) (hf : s.fault ≠ 0#2) : exec i s = .next s := by
  rw [exec_eq]
  match i with
  | .clear => exact absurd rfl hi
  | .absorb b => rw [afterVerdict, gate_of_faulted (absorbByte b) hf]
  | .emit => rw [afterVerdict, gate_of_faulted emitFrame hf]

/-- The only command that ends a fault is CLEAR (40_accumulate.md R52). -/
theorem eq_clear_of_exec_ends_fault {i : Instr} {s t : State} (h : exec i s = .next t) (hs : s.fault ≠ 0#2)
    (ht : t.fault = 0#2) : i = .clear := by
  by_contra hi
  rw [exec_of_faulted hi hs] at h
  injection h with hst
  exact hs (hst ▸ ht)

theorem clearRegisters_idem (s : State) : clearRegisters (clearRegisters s) = clearRegisters s := rfl

/-! ### The adder -/

theorem add32_eq_ofNat (a : Word) (b : Byte) : add32 a b = BitVec.ofNat 32 ((a.toNat + b.toNat) % u32Modulus) := by
  rw [← BitVec.toNat_inj, add32_toNat, BitVec.toNat_ofNat]
  exact (Nat.mod_mod _ _).symm

/-- The true sum has 33 bits, so at most one carry is dropped (40_accumulate.md R55). -/
theorem add_lt_two_mul_u32Modulus (a : Word) (b : Byte) : a.toNat + b.toNat < 2 * u32Modulus := by
  have ha : a.toNat < 2 ^ 32 := a.isLt
  have hb : b.toNat < 2 ^ 8 := b.isLt
  unfold u32Modulus
  omega

/-- The adder differs from the true sum exactly past the top. -/
theorem add32_toNat_ne_iff (a : Word) (b : Byte) :
    (add32 a b).toNat ≠ a.toNat + b.toNat ↔ 0xFFFFFFFF - b.toNat < a.toNat := by
  have hb : b.toNat < 2 ^ 8 := b.isLt
  rw [add32_toNat, ne_eq, Nat.mod_eq_iff_lt (by decide)]
  omega

/-! ### The counter -/

theorem len_succ_eq_ofNat (n : Word) : n + 1#32 = BitVec.ofNat 32 (n.toNat + 1) := by
  rw [BitVec.ofNat_add, BitVec.ofNat_toNat, BitVec.setWidth_eq]

/-- A counter that is not full stays in range. -/
theorem len_succ_lt_u32Modulus {n : Word} (h : n ≠ 0xFFFFFFFF#32) : n.toNat + 1 < u32Modulus :=
  len_succ_toNat h ▸ (n + 1#32).isLt

/-! ### ABSORB -/

/-- The registers after a counted byte, as numbers (40_accumulate.md R53). -/
theorem addAndCount_eq_ofNat (b : Byte) (s : State) :
    addAndCount b s = { s with sum := BitVec.ofNat 32 ((s.sum.toNat + b.toNat) % u32Modulus),
                               len := BitVec.ofNat 32 (s.len.toNat + 1) } := by
  rw [addAndCount, add32_eq_ofNat, len_succ_eq_ofNat]

/-- At full count ABSORB's byte does not reach the next state, whatever `FAULT` is (40_accumulate.md R54). -/
theorem exec_absorb_of_full (b : Byte) {s : State} (hl : s.len = 0xFFFFFFFF#32) :
    exec (.absorb b) s = .next (gate (raise .lengthOverflow) s) := by
  rw [exec_eq, afterVerdict, gate, gate, absorbByte_of_full b hl]

/-- At full count, with `FAULT` = 0, ABSORB changes `FAULT` only (40_accumulate.md R54). -/
theorem exec_absorb_overflows (b : Byte) {s : State} (hf : s.fault = 0#2) (hl : s.len = 0xFFFFFFFF#32) :
    exec (.absorb b) s = .next { s with fault := 1#2 } := by
  rw [exec_absorb_of_full b hl, gate_of_unfaulted _ hf, raise, FaultCause.code]

/-! ### The obligations -/

/-- Settles O15: CLEAR is `clearRegisters`, and no other command changes a faulted state. -/
theorem clearZeroesTheRegisters : Obligations.ClearZeroesTheRegisters := by
  refine ⟨encode_clear, exec_clear, fun i s t => eq_clear_of_exec_ends_fault, exec_clear State.reset, fun s t h => ?_⟩
  rw [exec_clear] at h ⊢
  injection h with ht
  rw [← ht, clearRegisters_idem]

/-- Settles O17: room in `LEN`, full count, and the fault gate. -/
theorem absorbAddsAndCounts : Obligations.AbsorbAddsAndCounts := by
  refine fun b s => ⟨encode_absorb_toNat b, fun hf hl => ⟨?_, len_succ_lt_u32Modulus hl⟩, exec_absorb_overflows b,
    exec_of_faulted (by simp)⟩
  rw [exec_absorb_of_room b hf hl, addAndCount_eq_ofNat]

/-- Settles O18: at full count no byte reaches the next state, and one byte earlier the count becomes full. -/
theorem absorbAtFullCountOverflows : Obligations.AbsorbAtFullCountOverflows := by
  refine ⟨fun b s => exec_absorb_overflows b, fun b c s hl => ?_, fun b s hf hl => ?_⟩
  · rw [exec_absorb_of_full b hl, exec_absorb_of_full c hl]
  · have room : s.len ≠ 0xFFFFFFFF#32 := by
      rw [hl]
      decide
    refine ⟨addAndCount b s, exec_absorb_of_room b hf room, ?_, hf⟩
    rw [addAndCount_len, hl]
    decide

/-- Settles O19: the adder's number, its one wrap, and the exact count. -/
theorem adderDropsTheCarry : Obligations.AdderDropsTheCarry :=
  ⟨add32_toNat, add_lt_two_mul_u32Modulus, add32_toNat_ne_iff, fun _ => len_succ_toNat⟩

end Sys2Proof.Machine
end

section
/-! PROOFS. The family of 41_serialize.md: the frame as a list of bytes (R60) and EMIT (R59, R62). -/

namespace Sys2Proof.Machine

/-! ### The bytes of a frame -/

/-- The four bytes hold the whole value, so they give it back. -/
theorem le32_injective {v w : Word} (h : le32 v = le32 w) : v = w := by
  have bytes_eq : (le32 v).map BitVec.toNat = (le32 w).map BitVec.toNat := congrArg _ h
  rw [le32_map_toNat, le32_map_toNat] at bytes_eq
  injection bytes_eq with h0 bytes_eq
  injection bytes_eq with h1 bytes_eq
  injection bytes_eq with h2 bytes_eq
  injection bytes_eq with h3
  rw [← BitVec.toNat_inj]
  omega

/-- The fields have fixed length, so a frame splits into its three fields in one way only (41_serialize.md R60). -/
theorem pack_injective {m n c m' n' c' : Word} (h : pack m n c = pack m' n' c') : m = m' ∧ n = n' ∧ c = c' := by
  obtain ⟨hmn, hc⟩ := List.append_inj' h rfl
  obtain ⟨hm, hn⟩ := List.append_inj' hmn rfl
  exact ⟨le32_injective hm, le32_injective hn, le32_injective hc⟩

/-- The frame's first field is the constant's bytes, `42 4F 4F 54`. -/
theorem take_four_pack_magic (n c : Word) :
    (pack Config.magic n c).take 4 = [0x42#8, 0x4F#8, 0x4F#8, 0x54#8] := by
  rw [pack, List.append_assoc, List.take_left' (le32_length _)]
  decide

/-- A field's bytes, listed by byte number. -/
theorem le32_eq_ofFn (v : Word) : le32 v = List.ofFn fun j : Fin 4 => v.extractLsb' (8 * j) 8 := rfl

/-- The 12 offsets are three fields of four bytes each, and the frame is the fields in that order. -/
theorem pack_eq_ofFn_hdrByte (s : State) : pack Config.magic s.len s.sum = List.ofFn (hdrByte s) := by
  have fields : List.ofFn (hdrByte s) = (List.ofFn fun f : Fin 3 =>
      le32 (if f.val = 0 then Config.magic else if f.val = 1 then s.len else s.sum)).flatten := by
    simp only [le32_eq_ofFn, ← hdrByte_of_offset]
    exact List.ofFn_mul' (m := 4) (n := 3) (hdrByte s)
  rw [fields]
  rfl

/-- The header of the empty image (41_serialize.md R59). -/
theorem pack_magic_zero_zero : pack Config.magic 0#32 0#32 =
    [0x42#8, 0x4F#8, 0x4F#8, 0x54#8, 0#8, 0#8, 0#8, 0#8, 0#8, 0#8, 0#8, 0#8] := by
  decide

/-! ### EMIT -/

/-- The next state of an EMIT without fault is the state with its frame (41_serialize.md R59). -/
theorem eq_emitFrame_of_exec_emit {s t : State} (hf : s.fault = 0#2) (h : exec .emit s = .next t) :
    t = emitFrame s := by
  rw [exec_emit_of_unfaulted hf] at h
  injection h with ht
  exact ht.symm

/-- The next state of an EMIT with a fault is the same state (41_serialize.md R62). -/
theorem eq_self_of_exec_emit {s t : State} (hf : s.fault ≠ 0#2) (h : exec .emit s = .next t) : t = s := by
  rw [exec_of_faulted (by simp) hf] at h
  injection h with ht
  exact ht.symm

/-- EMIT right after CLEAR appends the empty image's header. -/
theorem emitFrame_clearRegisters (s : State) :
    emitFrame (clearRegisters s) = { clearRegisters s with out := s.out ++
      [0x42#8, 0x4F#8, 0x4F#8, 0x54#8, 0#8, 0#8, 0#8, 0#8, 0#8, 0#8, 0#8, 0#8] } := by
  rw [← pack_magic_zero_zero]
  rfl

/-- A frame is read off `LEN` and `SUM` alone, which EMIT leaves: the second frame is the first one again. -/
theorem emitFrame_emitFrame (s : State) :
    emitFrame (emitFrame s) =
      { s with out := s.out ++ pack Config.magic s.len s.sum ++ pack Config.magic s.len s.sum } := rfl

/-- A frame adds its 12 bytes to `OUT`. -/
theorem emitFrame_out_length (s : State) : (emitFrame s).out.length = s.out.length + 12 := by
  rw [emitFrame_out, List.length_append, pack_length, Config.hdrLen]

/-! ### The obligations -/

/-- Settles O22: the frame as a list, its injectivity field by field, and its bytes by offset. -/
theorem packIsTheTwelveByteFrame : Obligations.PackIsTheTwelveByteFrame :=
  ⟨fun _ _ _ => rfl, pack_length, fun _ _ _ _ _ _ => pack_injective, take_four_pack_magic, pack_eq_ofFn_hdrByte⟩

/-- Settles O23: EMIT is `emitFrame` with `FAULT` = 0 and nothing otherwise, also after CLEAR, EMIT and ABSORB. -/
theorem emitAppendsTheFrame : Obligations.EmitAppendsTheFrame := by
  refine ⟨encode_emit, fun s => exec_emit_of_unfaulted, fun s => exec_of_faulted (by simp), fun s t hc => ?_,
    fun s t hf he => ?_, fun b s t hf hl he => ?_⟩
  · rw [exec_clear] at hc
    injection hc with ht
    rw [← ht, exec_emit_of_unfaulted (clearRegisters_fault s), emitFrame_clearRegisters]
  · rw [eq_emitFrame_of_exec_emit hf he, exec_emit_of_unfaulted ((emitFrame_fault s).trans hf), emitFrame_emitFrame,
      Config.magic]
  · rw [eq_emitFrame_of_exec_emit hf he]
    exact ⟨addAndCount b (emitFrame s), exec_absorb_of_room b hf hl, by simp⟩

/-- Settles O24: an EMIT adds 12 bytes with `FAULT` = 0 and none otherwise. -/
theorem emitWhileFaultedProducesNothing : Obligations.EmitWhileFaultedProducesNothing := by
  refine ⟨fun s => exec_of_faulted (by simp), fun s t h => ?_⟩
  by_cases hf : s.fault = 0#2
  · have hlen := emitFrame_out_length s
    rw [← eq_emitFrame_of_exec_emit hf h] at hlen
    simp [hlen, hf]
  · rw [eq_self_of_exec_emit hf h]
    simp [hf]

end Sys2Proof.Machine
end

section
/-! PROOFS. The family of 60_exceptions.md: how `FAULT` is entered (R72) and how it ends (R74). -/

namespace Sys2Proof.Machine

/-! ### Fault entry -/

/-- The two causes have the codes 1 and 2 (60_exceptions.md R67). -/
theorem code_eq_one_or_two (c : FaultCause) : c.code = 1#2 ∨ c.code = 2#2 := by
  match c with
  | .lengthOverflow => exact .inl rfl
  | .illegalCommand => exact .inr rfl

/-- A word that changes `FAULT` to a non-zero value meets `FAULT` = 0 and does nothing but `raise`
(60_exceptions.md R72). -/
theorem afterVerdict_eq_raise {v : Verdict} {s : State} (hne : (afterVerdict v s).fault ≠ s.fault)
    (h0 : (afterVerdict v s).fault ≠ 0#2) : s.fault = 0#2 ∧ ∃ c, afterVerdict v s = raise c s := by
  obtain ⟨-, h⟩ | ⟨-, -, h⟩ | ⟨hf, -, -, -, h⟩ | ⟨-, b, -, -, h⟩ | ⟨-, -, h⟩ | ⟨hf, -, -, h⟩ :=
    afterVerdict_cases v s
  · exact absurd (h ▸ clearRegisters_fault s) h0
  · exact absurd (congrArg State.fault h) hne
  · exact ⟨hf, .lengthOverflow, h⟩
  · exact absurd (h ▸ addAndCount_fault b s) hne
  · exact absurd (h ▸ emitFrame_fault s) hne
  · exact ⟨hf, .illegalCommand, h⟩

/-- A step that changes `FAULT` to a non-zero value accepts a command with `FAULT` = 0 and raises a fault. -/
theorem step_eq_raise {s t : State} (h : step s = .next t) (hne : t.fault ≠ s.fault) (h0 : t.fault ≠ 0#2) :
    s.fault = 0#2 ∧ ∃ c rest, t = raise c (acceptCommand rest s) := by
  obtain ⟨-, rfl⟩ | ⟨rest, -, rfl⟩ | ⟨w, rest, -, rfl⟩ := step_cases h
  · exact absurd rfl hne
  · exact absurd (acceptReset_fault rest s) h0
  · obtain ⟨hf, c, hc⟩ := afterVerdict_eq_raise (s := acceptCommand rest s) hne h0
    exact ⟨hf, c, rest, hc⟩

/-! ### The end of a fault -/

/-- With `FAULT` non-zero every word but CLEAR's does nothing, a reserved one too (60_exceptions.md R73). -/
theorem afterVerdict_of_faulted {v : Verdict} {s : State} (hv : v ≠ .command .clear) (hf : s.fault ≠ 0#2) :
    afterVerdict v s = s := by
  match v with
  | .command i =>
    have hexec : exec i s = .next s := exec_of_faulted (by simpa using hv) hf
    rw [exec_eq] at hexec
    injection hexec
  | .illegal _ => exact gate_of_faulted (raise .illegalCommand) hf

theorem eq_clear_of_afterVerdict_ends_fault {v : Verdict} {s : State} (hs : s.fault ≠ 0#2)
    (ht : (afterVerdict v s).fault = 0#2) : v = .command .clear := by
  by_contra hv
  rw [afterVerdict_of_faulted hv hs] at ht
  exact hs ht

/-- The host issues CLEAR's word or reset next: what ends a fault (60_exceptions.md R74). -/
def ClearOrResetNext (s : State) (rest : List HostEvent) : Prop :=
  s.pending = .command 0x100#10 :: rest ∨ s.pending = .reset :: rest

/-- A step that ends a fault is on CLEAR's word or on reset. -/
theorem clearOrResetNext_of_step_ends_fault {s t : State} (h : step s = .next t) (hs : s.fault ≠ 0#2)
    (ht : t.fault = 0#2) : ∃ rest, ClearOrResetNext s rest := by
  obtain ⟨-, rfl⟩ | ⟨rest, hp, -⟩ | ⟨w, rest, hp, rfl⟩ := step_cases h
  · exact absurd ht hs
  · exact ⟨rest, .inr hp⟩
  · have hclear := eq_clear_of_afterVerdict_ends_fault (s := acceptCommand rest s) hs ht
    rw [decode_eq_clear_iff] at hclear
    exact ⟨rest, .inl (hclear ▸ hp)⟩

/-- CLEAR's word and reset zero the three registers, from every state. -/
theorem step_of_clearOrResetNext {s : State} {rest : List HostEvent} (h : ClearOrResetNext s rest) :
    ∃ t, step s = .next t ∧ t.fault = 0#2 ∧ t.sum = 0#32 ∧ t.len = 0#32 := by
  obtain hp | hp := h
  · refine ⟨clearRegisters (acceptCommand rest s), ?_, rfl, rfl, rfl⟩
    rw [step_of_command hp, (decode_eq_clear_iff _).mpr rfl, execVerdict_eq, afterVerdict]
  · exact ⟨acceptReset rest s, step_of_reset hp, rfl, rfl, rfl⟩

/-- With `FAULT` = 0 a reserved word records IllegalCommand (60_exceptions.md R69). -/
theorem afterVerdict_illegal_of_unfaulted (r : Reserved) {s : State} (hf : s.fault = 0#2) :
    afterVerdict (.illegal r) s = raise .illegalCommand s :=
  gate_of_unfaulted (raise .illegalCommand) hf

/-- A reserved word right after CLEAR records its fault, whatever fault CLEAR ended. -/
theorem runEvents_clear_reserved (s : State) {w : Cmd} (hw : isReserved w = true) :
    ∃ t, Safety.runEvents s (Safety.commands [0x100#10, w]) = .next t ∧ t.fault = 2#2 := by
  obtain ⟨r, hr⟩ := (isReserved_iff w).mp hw
  rw [Safety.commands_cons, Safety.runEvents_command, (decode_eq_clear_iff _).mpr rfl, Safety.commands_cons,
    Safety.runEvents_command, hr, afterVerdict_illegal_of_unfaulted r rfl, Safety.commands_nil, Safety.runEvents_nil]
  exact ⟨_, rfl, rfl⟩

/-! ### The obligations -/

/-- Settles O27: fault entry is `raise` on the accepted command's state. -/
theorem faultEntryWritesOnlyFault : Obligations.FaultEntryWritesOnlyFault := by
  refine ⟨fun s => ⟨rfl, rfl⟩, fun s t h hne h0 => ?_⟩
  obtain ⟨hf, c, rest, rfl⟩ := step_eq_raise h hne h0
  exact ⟨hf, code_eq_one_or_two c, rfl, rfl, rfl⟩

/-- Settles O29: a fault ends only on CLEAR's word or reset, and both zero the registers from every state. -/
theorem onlyClearAndResetEndAFault : Obligations.OnlyClearAndResetEndAFault := by
  refine ⟨fun s t h hs ht => ?_, fun s rest => step_of_clearOrResetNext, fun s w => runEvents_clear_reserved s⟩
  obtain ⟨rest, hnext⟩ := clearOrResetNext_of_step_ends_fault h hs ht
  obtain ⟨u, hu, -, hsum, hlen⟩ := step_of_clearOrResetNext hnext
  obtain rfl : t = u := by
    rw [h] at hu
    injection hu
  exact ⟨⟨rest, hnext⟩, hsum, hlen⟩

end Sys2Proof.Machine
end

section
/-! PROOFS. What no one chapter owns: the decoder against the encoder and the assembler, the host's side of a step,
the faults, the invariant, the algorithm and the software component. -/

namespace Sys2Proof.Machine

open Sys2Proof.Safety

/-! ### The reserved words and the assembler's words -/

/-- The reserved words as ranges of numbers (30_encoding.md R45). -/
theorem isReserved_iff_ranges (w : Cmd) : isReserved w = true ↔
    w.toNat ≤ 0x0FF ∨ (0x101 ≤ w.toNat ∧ w.toNat ≤ 0x1FF) ∨ (0x301 ≤ w.toNat ∧ w.toNat ≤ 0x3FF) := by
  have hw : w.toNat < 2 ^ 10 := w.isLt
  rw [isReserved_iff_no_row, opField_eq_absorb_iff, ← BitVec.toNat_inj, ← BitVec.toNat_inj, BitVec.toNat_ofNat,
    BitVec.toNat_ofNat]
  omega

/-- The ranges again, on the numbers of the words. -/
theorem isReserved_ofNat_iff {n : Nat} (hn : n < 1024) : isReserved (BitVec.ofNat 10 n) = true ↔
    n < 256 ∨ (257 ≤ n ∧ n < 512) ∨ (769 ≤ n ∧ n < 1024) := by
  rw [isReserved_iff_ranges, BitVec.toNat_ofNat, Nat.mod_eq_of_lt hn]
  omega

/-- The three ranges have 256, 255 and 255 words (30_encoding.md R45). -/
theorem card_reserved : ((List.range 1024).filter fun n => isReserved (BitVec.ofNat 10 n)).length = 766 := by
  have ranges : ((List.range 1024).filter fun n => isReserved (BitVec.ofNat 10 n)).toFinset =
      Finset.Ico 0 256 ∪ Finset.Ico 257 512 ∪ Finset.Ico 769 1024 := by
    ext n
    rw [List.mem_toFinset, List.mem_filter, List.mem_range, and_congr_right fun hn => isReserved_ofNat_iff hn]
    simp only [Finset.mem_union, Finset.mem_Ico]
    omega
  rw [← List.toFinset_card_of_nodup (List.nodup_range.filter _), ranges, Finset.card_union_of_disjoint,
    Finset.card_union_of_disjoint, Nat.card_Ico, Nat.card_Ico, Nat.card_Ico]
  all_goals
    rw [Finset.disjoint_left]
    simp only [Finset.mem_union, Finset.mem_Ico]
    omega

/-- An ABSORB's word, written from the byte's number (30_encoding.md R40). -/
theorem encode_absorb_ofNat {n : Nat} (h : n ≤ 255) :
    encode (.absorb (BitVec.ofNat 8 n)) = BitVec.ofNat 10 (0x200 + n) := by
  rw [← BitVec.toNat_inj, encode_absorb_toNat, BitVec.toNat_ofNat, BitVec.toNat_ofNat]
  omega

theorem absorbsOf_bytesOf {ns : List Nat} (h : ∀ n ∈ ns, n ≤ 255) :
    absorbsOf (bytesOf ns) = ns.map fun n => BitVec.ofNat 10 (0x200 + n) := by
  rw [absorbsOf, bytesOf, List.map_map]
  exact List.map_congr_left fun n hn => encode_absorb_ofNat (h n hn)

theorem assembleLine_of_wf {l : AsmLine} (h : l.wf = true) : assembleLine l = some (lineWords l) := if_pos h

theorem assembleLine_of_not_wf {l : AsmLine} (h : ¬ l.wf = true) : assembleLine l = none := if_neg h

theorem all_byteInRange_iff (ns : List Nat) : ns.all byteInRange = true ↔ ∀ n ∈ ns, n ≤ 255 := by
  simp [byteInRange]

/-- Settles O5: each command is read from its encoding and from no other word. -/
theorem decodeAndEncodeAgree : Obligations.DecodeAndEncodeAgree :=
  ⟨decode_encode, fun _ _ => encode_of_decode⟩

/-- Settles O4: the decoder evaluated on each of the eight words. -/
theorem writtenOutWordsDecode : Obligations.WrittenOutWordsDecode := by
  unfold Obligations.WrittenOutWordsDecode
  decide

/-- Settles O6: the check on the line's numbers decides, and numbers in range are the fields of the words. -/
theorem assemblerExpandsAndRejects : Obligations.AssemblerExpandsAndRejects := by
  refine ⟨fun n h => ?_, fun n h => ?_, fun n h => ?_, fun n h => ?_, fun ns h => ?_, fun ns h => ?_⟩
  · rw [assembleLine_of_wf (l := .absorb n) (decide_eq_true h), lineWords, encode_absorb_ofNat h]
  · exact assembleLine_of_not_wf (by simpa [AsmLine.wf, byteInRange] using h)
  · exact assembleLine_of_wf (decide_eq_true h)
  · exact assembleLine_of_not_wf (by simpa [AsmLine.wf, wordInRange] using h)
  · have hall := (all_byteInRange_iff ns).mpr h
    rw [assembleLine_of_wf (l := .absorbs ns) hall, assembleLine_of_wf (l := .build ns) hall, lineWords, lineWords,
      buildOf, absorbsOf_bytesOf h, encode_clear, encode_emit]
    exact ⟨rfl, rfl⟩
  · have hnone : ¬ ns.all byteInRange = true := by
      obtain ⟨n, hn, hbig⟩ := h
      rw [all_byteInRange_iff]
      exact fun hall => absurd (hall n hn) (by omega)
    exact ⟨assembleLine_of_not_wf hnone, assembleLine_of_not_wf hnone⟩

/-! ### The host's side of a step -/

/-- The state with another queue and another index: only a meaning that reads the host's side could tell it from `s`
(10_state.md R16). -/
def withHost (es : List HostEvent) (n : Nat) (s : State) : State := { s with pending := es, pc := n }

@[simp] theorem withHost_fault (es : List HostEvent) (n : Nat) (s : State) : (withHost es n s).fault = s.fault := rfl
@[simp] theorem withHost_len (es : List HostEvent) (n : Nat) (s : State) : (withHost es n s).len = s.len := rfl

theorem acceptCommand_eq (rest : List HostEvent) (s : State) : acceptCommand rest s = withHost rest (s.pc + 1) s := rfl

/-- The gate adds no use of the host's side to an operation that has none. -/
theorem gate_withHost {f : State → State} {es : List HostEvent} {n : Nat} {s : State}
    (h : f (withHost es n s) = withHost es n (f s)) : gate f (withHost es n s) = withHost es n (gate f s) := by
  by_cases hf : s.fault = 0#2
  · rw [gate_of_unfaulted f hf, gate_of_unfaulted f (by simpa using hf), h]
  · rw [gate_of_faulted f hf, gate_of_faulted f (by simpa using hf)]

theorem absorbByte_withHost (b : Byte) (es : List HostEvent) (n : Nat) (s : State) :
    absorbByte b (withHost es n s) = withHost es n (absorbByte b s) := by
  by_cases hl : s.len = 0xFFFFFFFF#32
  · rw [absorbByte_of_full b hl, absorbByte_of_full b (by simpa using hl)]
    rfl
  · rw [absorbByte_of_room b hl, absorbByte_of_room b (by simpa using hl)]
    rfl

/-- No command and no reserved word reads or writes the host's side. -/
theorem afterVerdict_withHost (v : Verdict) (es : List HostEvent) (n : Nat) (s : State) :
    afterVerdict v (withHost es n s) = withHost es n (afterVerdict v s) := by
  match v with
  | .command .clear => rfl
  | .command (.absorb b) => exact gate_withHost (absorbByte_withHost b es n s)
  | .command .emit => exact gate_withHost rfl
  | .illegal _ => exact gate_withHost rfl

/-- A step on a command word: the verdict's effect on the block, and the host's side moved on by one. -/
theorem step_command {s : State} {w : Cmd} {rest : List HostEvent} (h : s.pending = .command w :: rest) :
    step s = .next (withHost rest (s.pc + 1) (afterVerdict (decode w) s)) := by
  rw [step_of_command h, execVerdict_eq, acceptCommand_eq, afterVerdict_withHost]

/-- Every step completes (40_accumulate.md R51). -/
theorem step_total (s : State) : ∃ t, step s = .next t := by
  obtain ⟨t, ht, -⟩ := step_withOut s
  exact ⟨t, ht⟩

/-- A step from another index does the same to everything else. -/
theorem step_withIndex {s t : State} (h : step s = .next t) (n : Nat) :
    ∃ k, step { s with pc := n } = .next { t with pc := k } := by
  obtain ⟨hp, rfl⟩ | ⟨rest, hp, rfl⟩ | ⟨w, rest, hp, rfl⟩ := step_cases h
  · exact ⟨n, step_of_idle hp⟩
  · exact ⟨n, step_of_reset hp⟩
  · refine ⟨n + 1, ?_⟩
    have hindex : { s with pc := n } = withHost s.pending n s := rfl
    rw [step_command (s := { s with pc := n }) hp, acceptCommand_eq, hindex, afterVerdict_withHost,
      afterVerdict_withHost]
    rfl

theorem run_of_idle {s : State} (h : s.pending = []) (k : Nat) : Sys2Proof.core.run k s = .next s := by
  induction k with
  | zero => rfl
  | succ k ih =>
    have hstep : Sys2Proof.core.step s = .next s := step_of_idle h
    simpa only [Host.Core.run, hstep] using ih

/-- What `decodeTableWord` reads is the decoder's command on a word that can be offered. -/
theorem exists_word_of_decodeTableWord {nbits w : Nat} {i : Instr} (h : decodeTableWord nbits w = some i) :
    ∃ c, tableWord nbits w = some c ∧ decode c = .command i := by
  unfold decodeTableWord at h
  split at h
  case h_1 => cases h
  case h_2 c hc =>
    split at h
    case h_1 j hj =>
      cases h
      exact ⟨c, hc, hj⟩
    case h_2 => cases h

/-- Settles O7: the decoded verdict is a command. -/
theorem stepRunsTheDecodedCommand : Obligations.StepRunsTheDecodedCommand := by
  intro s w rest i hp hd
  rw [step_of_command hp, hd]
  rfl

/-- Settles O8: the placed word is offered in front of the queue, and accepting it restores the queue. -/
theorem placedWordRunsNext : Obligations.PlacedWordRunsNext := by
  intro s nbits w i h
  obtain ⟨c, hc, hd⟩ := exists_word_of_decodeTableWord h
  rw [State.withFetchWord, hc, step_of_command (offerCommand_pending c s), hd]
  rfl

/-- Settles O9: every outcome is a next state, and behind the gate it is the same state. -/
theorem dispatchIsTotalAndGated : Obligations.DispatchIsTotalAndGated := by
  refine ⟨step_total, fun i s => ⟨_, exec_eq i s⟩, fun s => ⟨_, exec_clear s, clearRegisters_fault s⟩,
    fun i s => exec_of_faulted, fun r s hf => ?_⟩
  rw [execVerdict_eq, afterVerdict_of_faulted (by simp) hf]

/-- Settles O10, by induction on the number of steps. -/
theorem idleBlockHoldsItsState : Obligations.IdleBlockHoldsItsState :=
  fun _ => run_of_idle

/-- Settles O11: what the three kinds of step do to the host's side. -/
theorem hostIndexAdvancesByOne : Obligations.HostIndexAdvancesByOne := by
  refine ⟨rfl, fun s t w rest hp h => ?_, fun s t rest hp h => ?_, fun s t n h => step_withIndex h n⟩
  · rw [step_command hp] at h
    cases h
    exact ⟨rfl, rfl⟩
  · rw [step_of_reset hp] at h
    cases h
    exact ⟨rfl, rfl⟩

/-- Settles O14: reset is `acceptReset`. -/
theorem resetEventKeepsTheTrace : Obligations.ResetEventKeepsTheTrace :=
  fun _ _ => step_of_reset

/-- Settles O3: the ranges, their count, and fault entry behind the open gate. -/
theorem reservedWordsRaiseIllegalCommand : Obligations.ReservedWordsRaiseIllegalCommand := by
  refine ⟨isReserved_iff_ranges, card_reserved, fun s w rest hp hw hf => ?_⟩
  obtain ⟨r, hr⟩ := (isReserved_iff w).mp hw
  rw [step_command hp, hr, afterVerdict_illegal_of_unfaulted r hf]
  rfl

end Sys2Proof.Machine

namespace Sys2Proof.Safety

open Sys2Proof.Machine

/-! ### Runs compose -/

/-- A command word at the head of a run: its effect on the block, and the index one higher. -/
theorem runEvents_command_cons (s : State) (w : Cmd) (es : List HostEvent) :
    runEvents s (.command w :: es) = runEvents (withHost [] (s.pc + 1) (afterVerdict (decode w) s)) es := by
  rw [runEvents_command, acceptCommand_eq, afterVerdict_withHost]
  rfl

/-- Reset at the head of a run. -/
theorem runEvents_reset_cons (s : State) (es : List HostEvent) :
    runEvents s (.reset :: es) = runEvents (clearRegisters s) es := by
  rw [runEvents_reset]
  rfl

/-- A run of joined sequences goes on from where the first one ends (20_memory.md R36). -/
theorem runEvents_append {s t : State} {xs : List HostEvent} (h : runEvents s xs = .next t) (ys : List HostEvent) :
    runEvents s (xs ++ ys) = runEvents t ys := by
  induction xs generalizing s with
  | nil =>
    rw [runEvents_nil] at h
    cases h
    rfl
  | cons e xs ih =>
    match e with
    | .reset =>
      rw [runEvents_reset_cons] at h
      rw [List.cons_append, runEvents_reset_cons, ih h]
    | .command w =>
      rw [runEvents_command_cons] at h
      rw [List.cons_append, runEvents_command_cons, ih h]

/-- Settles O12, by induction on the first sequence. -/
theorem runsComposeInOrder : Obligations.RunsComposeInOrder :=
  fun _ _ _ ys h => runEvents_append h ys

end Sys2Proof.Safety

namespace Sys2Proof.Machine

open Sys2Proof.Safety

/-! ### The faults and the counters over a step -/

/-- The fault a word raises with `FAULT` = 0, if any (60_exceptions.md R67). -/
def causeOf (v : Verdict) (s : State) : Option FaultCause :=
  match v with
  | .command (.absorb _) => if s.len = 0xFFFFFFFF#32 then some .lengthOverflow else none
  | .illegal _ => some .illegalCommand
  | .command .clear => none
  | .command .emit => none

theorem causeOf_eq_lengthOverflow_iff (v : Verdict) (s : State) :
    causeOf v s = some .lengthOverflow ↔ (∃ b, v = .command (.absorb b)) ∧ s.len = 0xFFFFFFFF#32 := by
  match v with
  | .command .clear => simp [causeOf]
  | .command (.absorb b) => simp [causeOf]
  | .command .emit => simp [causeOf]
  | .illegal r => simp [causeOf]

theorem causeOf_eq_illegalCommand_iff (v : Verdict) (s : State) :
    causeOf v s = some .illegalCommand ↔ ∃ r, v = .illegal r := by
  match v with
  | .command .clear => simp [causeOf]
  | .command (.absorb b) => simp [causeOf]
  | .command .emit => simp [causeOf]
  | .illegal r => simp [causeOf]

/-- From `FAULT` = 0 a word leaves the code of the fault it raises. -/
theorem afterVerdict_fault_of_unfaulted (v : Verdict) {s : State} (hf : s.fault = 0#2) :
    (afterVerdict v s).fault = faultCodeOf (causeOf v s) := by
  obtain ⟨rfl, h⟩ | ⟨hne, -, -⟩ | ⟨-, b, rfl, hl, h⟩ | ⟨-, b, rfl, hl, h⟩ | ⟨-, rfl, h⟩ | ⟨-, r, rfl, h⟩ :=
    afterVerdict_cases v s
  · rw [h]
    rfl
  · exact absurd hf hne
  · rw [h, causeOf, if_pos hl]
    rfl
  · rw [h, causeOf, if_neg hl]
    exact hf
  · rw [h]
    exact hf
  · rw [h]
    rfl

/-- The codes tell the causes apart, and 3 is no code (10_state.md R17). -/
theorem faultCodeOf_eq_iff (o : Option FaultCause) :
    (faultCodeOf o = 1#2 ↔ o = some .lengthOverflow) ∧ (faultCodeOf o = 2#2 ↔ o = some .illegalCommand) ∧
      faultCodeOf o ≠ 3#2 := by
  match o with
  | none => decide
  | some .lengthOverflow => decide
  | some .illegalCommand => decide

/-- All that a verdict can do to the two counters (10_state.md R13). -/
theorem afterVerdict_counters_cases (v : Verdict) (s : State) :
    v = .command .clear ∨
      (s.fault = 0#2 ∧ s.len ≠ 0xFFFFFFFF#32 ∧ ∃ b, v = .command (.absorb b) ∧ afterVerdict v s = addAndCount b s) ∨
      ((afterVerdict v s).sum = s.sum ∧ (afterVerdict v s).len = s.len) := by
  obtain ⟨hv, -⟩ | ⟨-, -, h⟩ | ⟨-, b, -, -, h⟩ | ⟨hf, b, hv, hl, h⟩ | ⟨-, -, h⟩ | ⟨-, r, -, h⟩ :=
    afterVerdict_cases v s
  · exact .inl hv
  · exact .inr (.inr (by simp [h]))
  · exact .inr (.inr (by simp [h]))
  · exact .inr (.inl ⟨hf, hl, b, hv, h⟩)
  · exact .inr (.inr (by simp [h]))
  · exact .inr (.inr (by simp [h]))

/-- Settles O26: the code left is the one of the cause, and a step that leaves one does nothing but `raise`. -/
theorem faultsAreRaisedExactlyByTheirCauses : Obligations.FaultsAreRaisedExactlyByTheirCauses := by
  intro s t w rest hp hf h
  rw [step_command hp] at h
  cases h
  obtain ⟨overflow, illegal, notThree⟩ := faultCodeOf_eq_iff (causeOf (decode w) s)
  rw [withHost_fault, afterVerdict_fault_of_unfaulted _ hf]
  refine ⟨overflow.trans (causeOf_eq_lengthOverflow_iff _ s),
    illegal.trans ((causeOf_eq_illegalCommand_iff _ s).trans (isReserved_iff w).symm), notThree, fun h0 => ?_⟩
  rw [← afterVerdict_fault_of_unfaulted _ hf] at h0 ⊢
  obtain ⟨-, c, hc⟩ := afterVerdict_eq_raise (hf ▸ h0) h0
  rw [hc]
  rfl

/-- Settles O28: CLEAR's word is the one word the gate lets through. -/
theorem whileFaultedOnlyClearActs : Obligations.WhileFaultedOnlyClearActs := by
  refine fun s w rest hp hf => ⟨fun hw => ?_, fun hw => ?_⟩
  · have hd : decode w ≠ .command .clear := fun hd => hw ((decode_eq_clear_iff w).mp hd)
    rw [step_command hp, afterVerdict_of_faulted hd hf]
    rfl
  · rw [step_command hp, (decode_eq_clear_iff w).mpr hw]
    rfl

/-- Settles O30: an idle step changes nothing, and of the words only CLEAR and a counted ABSORB touch the counters. -/
theorem onlyAbsorbClearAndResetWriteTheSum : Obligations.OnlyAbsorbClearAndResetWriteTheSum := by
  intro s t h hchanged
  obtain ⟨-, rfl⟩ | ⟨rest, hp, -⟩ | ⟨w, rest, hp, rfl⟩ := step_cases h
  · simp at hchanged
  · exact ⟨rest, .inl hp⟩
  · refine ⟨rest, .inr ⟨w, hp, ?_⟩⟩
    obtain hc | ⟨hf, -, b, hb, -⟩ | ⟨hsum, hlen⟩ := afterVerdict_counters_cases (decode w) (acceptCommand rest s)
    · exact .inl hc
    · exact .inr ⟨hf, b, hb⟩
    · simp [hsum, hlen] at hchanged

/-- Settles O32: a byte is counted only where the counter is not full, and the counter is zeroed only on CLEAR's word
and on reset. -/
theorem lenNeverWraps : Obligations.LenNeverWraps := by
  intro s t h
  obtain ⟨-, rfl⟩ | ⟨rest, hp, rfl⟩ | ⟨w, rest, hp, rfl⟩ := step_cases h
  · exact .inl rfl
  · exact .inr (.inr ⟨rfl, rest, .inr hp⟩)
  · obtain hc | ⟨-, hl, b, -, hb⟩ | ⟨-, hlen⟩ := afterVerdict_counters_cases (decode w) (acceptCommand rest s)
    · rw [hc]
      rw [decode_eq_clear_iff] at hc
      exact .inr (.inr ⟨rfl, rest, .inl (hc ▸ hp)⟩)
    · rw [hb]
      exact .inr (.inl (len_succ_toNat hl))
    · exact .inl hlen

/-! ### The invariant -/

/-- The invariant reads `FAULT` and `OUT` only, and every verdict keeps it (10_state.md R26). -/
theorem inv_afterVerdict {s : State} (h : Inv s) (v : Verdict) : Inv (afterVerdict v s) := by
  obtain ⟨hfault, hout⟩ := h
  obtain ⟨-, ht⟩ | ⟨-, -, ht⟩ | ⟨-, b, -, -, ht⟩ | ⟨-, b, -, -, ht⟩ | ⟨-, -, ht⟩ | ⟨-, r, -, ht⟩ :=
    afterVerdict_cases v s <;> rw [ht]
  · exact ⟨by simp, hout⟩
  · exact ⟨hfault, hout⟩
  · exact ⟨by simp [FaultCause.code], hout⟩
  · exact ⟨hfault, hout⟩
  · exact ⟨hfault, framed_append hout s.len s.sum⟩
  · exact ⟨by simp [FaultCause.code], hout⟩

/-- Settles O33: nothing has been produced at reset. -/
theorem invariantHoldsAtReset : Obligations.InvariantHoldsAtReset :=
  ⟨by decide, framed_nil⟩

/-- Settles O34: each kind of step keeps the two parts. -/
theorem everyStepKeepsTheInvariant : Obligations.EveryStepKeepsTheInvariant := by
  intro s t hinv h
  obtain ⟨-, rfl⟩ | ⟨rest, -, rfl⟩ | ⟨w, rest, -, rfl⟩ := step_cases h
  · exact hinv
  · obtain ⟨-, hout⟩ := hinv
    exact ⟨by simp, hout⟩
  · exact inv_afterVerdict (s := acceptCommand rest s) hinv (decode w)

end Sys2Proof.Machine

namespace Sys2Proof.Safety

open Sys2Proof.Machine

/-! ### The checksum -/

theorem checksum_toNat (image : List Byte) :
    (checksum image).toNat = (image.map BitVec.toNat).sum % u32Modulus :=
  BitVec.toNat_ofNat _ _

/-- The order of the bytes does not matter (40_accumulate.md R56). -/
theorem checksum_perm {S T : List Byte} (h : S.Perm T) : checksum S = checksum T := by
  rw [checksum, checksum, (h.map BitVec.toNat).sum_eq]

theorem checksum_append_toNat (S T : List Byte) :
    (checksum (S ++ T)).toNat = ((checksum S).toNat + (checksum T).toNat) % u32Modulus := by
  rw [checksum_toNat, checksum_toNat, checksum_toNat, List.map_append, List.sum_append, Nat.add_mod]

theorem checksum_snoc_zero (image : List Byte) : checksum (image ++ [0x00#8]) = checksum image := by
  rw [checksum_snoc]
  exact BitVec.add_zero _

/-- A byte is at most 255, so the sum is at most 255 a byte. -/
theorem byteSum_le (image : List Byte) : (image.map BitVec.toNat).sum ≤ image.length * 255 := by
  have byte_le : ∀ n ∈ image.map BitVec.toNat, n ≤ 255 := by
    intro n hn
    obtain ⟨b, -, rfl⟩ := List.mem_map.mp hn
    exact Nat.le_of_lt_succ b.isLt
  simpa using List.sum_le_card_nsmul _ 255 byte_le

theorem byteSum_replicate (n : Nat) (b : Byte) : ((List.replicate n b).map BitVec.toNat).sum = n * b.toNat := by
  rw [List.map_replicate, List.sum_replicate, smul_eq_mul]

/-! ### The state that records an image -/

/-- The state whose registers describe an image absorbed without fault (10_state.md R26 (b)). -/
def record (image : List Byte) (s : State) : State :=
  { s with sum := checksum image, len := BitVec.ofNat 32 image.length, fault := 0#2 }

@[simp] theorem record_fault (image : List Byte) (s : State) : (record image s).fault = 0#2 := rfl

/-- A length in range is held as it is. -/
theorem ofNat_length_toNat {image : List Byte} (h : image.length ≤ Config.maxImageLen) :
    (BitVec.ofNat 32 image.length).toNat = image.length := by
  rw [Config.maxImageLen] at h
  rw [BitVec.toNat_ofNat]
  omega

/-- The counter is full exactly for the longest image. -/
theorem ofNat_length_eq_full_iff {image : List Byte} (h : image.length ≤ Config.maxImageLen) :
    BitVec.ofNat 32 image.length = 0xFFFFFFFF#32 ↔ image.length = Config.maxImageLen := by
  rw [← BitVec.toNat_inj, ofNat_length_toNat h]
  rfl

/-- Registers that describe an image without fault are the record of it. -/
theorem record_eq_self {image : List Byte} {s : State} (hsum : s.sum = checksum image)
    (hlen : s.len.toNat = image.length) (hf : s.fault = 0#2) : record image s = s := by
  rw [record, ← hsum, ← hlen, ← hf, BitVec.ofNat_toNat, BitVec.setWidth_eq]

theorem record_nil_eq_self {s : State} (hsum : s.sum = 0#32) (hlen : s.len = 0#32) (hf : s.fault = 0#2) :
    record [] s = s :=
  record_eq_self hsum (congrArg BitVec.toNat hlen) hf

/-- A counted byte makes the record that of one byte more. -/
theorem addAndCount_record (b : Byte) (image : List Byte) (s : State) :
    addAndCount b (record image s) = record (image ++ [b]) s := by
  unfold record
  rw [checksum_snoc, List.length_append, List.length_singleton, BitVec.ofNat_add]
  rfl

/-- ABSORB with room in the counter (40_accumulate.md R53). -/
theorem afterVerdict_absorb_record (b : Byte) {image : List Byte} (h : image.length < Config.maxImageLen) (s : State) :
    afterVerdict (.command (.absorb b)) (record image s) = record (image ++ [b]) s := by
  have room : (record image s).len ≠ 0xFFFFFFFF#32 :=
    fun hfull => h.ne ((ofNat_length_eq_full_iff h.le).mp hfull)
  rw [afterVerdict, gate_of_unfaulted _ (record_fault image s), absorbByte_of_room b room, addAndCount_record]

/-- ABSORB after the longest image (40_accumulate.md R54). -/
theorem afterVerdict_absorb_record_of_full (b : Byte) {image : List Byte} (h : image.length = Config.maxImageLen)
    (s : State) :
    afterVerdict (.command (.absorb b)) (record image s) = raise .lengthOverflow (record image s) := by
  have full : (record image s).len = 0xFFFFFFFF#32 := (ofNat_length_eq_full_iff h.le).mpr h
  rw [afterVerdict, gate_of_unfaulted _ (record_fault image s), absorbByte_of_full b full]

/-- EMIT appends the frame of the recorded image's header (41_serialize.md R63). -/
theorem afterVerdict_emit_record (image : List Byte) (s : State) :
    afterVerdict (.command .emit) (record image s) = record image (appendOut (frame (build image)) s) := by
  rw [afterVerdict, gate_of_unfaulted _ (record_fault image s)]
  rfl

/-! ### Runs of an image's words -/

/-- The image's bytes absorbed after those recorded (40_accumulate.md R56). -/
theorem runEvents_absorbsOf {image S : List Byte} (h : (image ++ S).length ≤ Config.maxImageLen) (s : State) :
    runEvents (record image s) (commands (absorbsOf S)) =
      .next (record (image ++ S) (withHost [] (s.pc + S.length) s)) := by
  induction S generalizing image s with
  | nil =>
    rw [List.append_nil]
    rfl
  | cons b S ih =>
    have room : image.length < Config.maxImageLen := by
      rw [List.length_append, List.length_cons] at h
      omega
    rw [List.append_cons] at h ⊢
    rw [absorbsOf_cons, commands_cons, runEvents_command_cons, decode_encode, afterVerdict_absorb_record b room,
      List.length_cons, Nat.add_comm S.length 1, ← Nat.add_assoc]
    exact ih h (withHost [] (s.pc + 1) s)

/-- The image's bytes and an EMIT after what is recorded. -/
theorem runEvents_absorbsOf_emit {image S : List Byte} (h : (image ++ S).length ≤ Config.maxImageLen) (s : State) :
    runEvents (record image s) (commands (absorbsOf S ++ [0x300#10])) =
      .next (record (image ++ S)
        (withHost [] (s.pc + (S.length + 1)) (appendOut (frame (build (image ++ S))) s))) := by
  rw [commands_append, runEvents_append (runEvents_absorbsOf h s), commands_cons, runEvents_command_cons,
    (decode_eq_emit_iff _).mpr rfl, afterVerdict_emit_record]
  rfl

/-- CLEAR at the head of a run: the rest runs from the empty image's record. -/
theorem runEvents_clear_cons (s : State) (ws : List Cmd) :
    runEvents s (commands (encode .clear :: ws)) =
      runEvents (record [] (withHost [] (s.pc + 1) s)) (commands ws) := by
  rw [commands_cons, runEvents_command_cons, decode_encode]
  rfl

/-- The build law, from every state (41_serialize.md R64). -/
theorem runEvents_buildOf {S : List Byte} (h : S.length ≤ Config.maxImageLen) (s : State) :
    runEvents s (commands (buildOf S)) =
      .next (record S (withHost [] (s.pc + (S.length + 2)) (appendOut (frame (build S)) s))) := by
  have hpc : s.pc + 1 + (S.length + 1) = s.pc + (S.length + 2) := by omega
  rw [buildOf, List.cons_append, runEvents_clear_cons, encode_emit, runEvents_absorbsOf_emit (image := []) h,
    List.nil_append, ← hpc]
  rfl

/-- A faulted block lets all words but CLEAR's pass (60_exceptions.md R73). -/
theorem runEvents_of_faulted {s : State} (hf : s.fault ≠ 0#2) {ws : List Cmd} (hws : ∀ w ∈ ws, w ≠ encode .clear) :
    runEvents s (commands ws) = .next (withHost [] (s.pc + ws.length) s) := by
  induction ws generalizing s with
  | nil => rfl
  | cons w ws ih =>
    obtain ⟨hw, hws⟩ := List.forall_mem_cons.mp hws
    have hd : decode w ≠ .command .clear := fun hd => hw ((decode_eq_command_iff w .clear).mp hd)
    rw [commands_cons, runEvents_command_cons, afterVerdict_of_faulted hd hf,
      ih (s := withHost [] (s.pc + 1) s) hf hws, List.length_cons, Nat.add_comm ws.length 1, ← Nat.add_assoc]
    rfl

theorem encode_absorb_ne_encode_clear (b : Byte) : encode (.absorb b) ≠ encode .clear := by
  intro h
  have hdecode := congrArg decode h
  rw [decode_encode, decode_encode] at hdecode
  cases hdecode

/-- The byte after the longest image raises LengthOverflow, and the rest of the image and EMIT pass
(70_reset_and_hazards.md R89). -/
theorem runEvents_buildOf_overlong {S T : List Byte} {b : Byte} (h : S.length = Config.maxImageLen) (s : State) :
    ∃ n, runEvents s (commands (buildOf (S ++ b :: T))) =
      .next (raise .lengthOverflow (record S (withHost [] n s))) := by
  have words : buildOf (S ++ b :: T) =
      encode .clear :: (absorbsOf S ++ encode (.absorb b) :: (absorbsOf T ++ [encode .emit])) := by
    simp [buildOf, absorbsOf_append]
  have notClear : ∀ w ∈ absorbsOf T ++ [encode .emit], w ≠ encode .clear := by
    intro w hw
    obtain hw | hw := List.mem_append.mp hw
    · obtain ⟨c, -, rfl⟩ := List.mem_map.mp hw
      exact encode_absorb_ne_encode_clear c
    · obtain rfl := List.mem_singleton.mp hw
      decide
  rw [words, runEvents_clear_cons, commands_append, runEvents_append (runEvents_absorbsOf (image := []) h.le _),
    List.nil_append, commands_cons, runEvents_command_cons, decode_encode,
    afterVerdict_absorb_record_of_full b h, runEvents_of_faulted (by simp [FaultCause.code]) notClear]
  exact ⟨_, rfl⟩

/-- Settles O35: the run is `runEvents_absorbsOf` from the empty record; the rest is arithmetic of the byte sum. -/
theorem absorbingAnImageComputesItsChecksum : Obligations.AbsorbingAnImageComputesItsChecksum := by
  refine ⟨fun S s hS hsum hlen hf => ?_, checksum_toNat, checksum_nil, fun S T => checksum_perm,
    checksum_append_toNat, checksum_snoc_zero, fun S hS => ?_, ?_, ?_⟩
  · have run := runEvents_absorbsOf (image := []) hS s
    rw [record_nil_eq_self hsum hlen hf, List.nil_append] at run
    rw [run, record, ← hf]
    rfl
  · have hsum := byteSum_le S
    unfold u32Modulus
    omega
  · rw [byteSum_replicate]
    decide
  · rw [checksum, byteSum_replicate]
    decide

/-- Settles O36: with CLEAR from every state, without it from the empty record. -/
theorem buildLawHoldsFromEveryState : Obligations.BuildLawHoldsFromEveryState := by
  refine fun S s hS => ⟨runEvents_buildOf hS s, fun hsum hlen hf => ?_⟩
  have run := runEvents_absorbsOf_emit (image := []) hS s
  rw [record_nil_eq_self hsum hlen hf, List.nil_append] at run
  rw [run, record, ← hf]
  rfl

/-- Settles O37: the image splits into the longest one, the byte that overflows, and the rest. -/
theorem overlongImageGetsNoHeader : Obligations.OverlongImageGetsNoHeader := by
  intro S s hS
  have hmax : Config.maxImageLen < S.length := hS
  have htake : (S.take Config.maxImageLen).length = Config.maxImageLen := List.length_take_of_le hmax.le
  have hsplit : S.take Config.maxImageLen ++ S[Config.maxImageLen] :: S.drop (Config.maxImageLen + 1) = S := by
    rw [← List.drop_eq_getElem_cons hmax, List.take_append_drop]
  obtain ⟨n, run⟩ := runEvents_buildOf_overlong (T := S.drop (Config.maxImageLen + 1)) (b := S[Config.maxImageLen])
    htake s
  rw [hsplit] at run
  exact ⟨_, run, rfl, rfl, (ofNat_length_eq_full_iff htake.le).mpr htake, rfl⟩

/-- Settles O38: after the first EMIT the block still records the first image. -/
theorem missingClearJoinsTwoImages : Obligations.MissingClearJoinsTwoImages := by
  intro S T s h
  have hS : S.length ≤ Config.maxImageLen := le_of_add_le_left h
  rw [← List.length_append] at h
  rw [List.append_assoc, commands_append, runEvents_append (runEvents_buildOf hS s), runEvents_absorbsOf_emit h]
  exact ⟨_, rfl, rfl, rfl⟩

/-- Settles O39: the outputs after the run are the payload's record, and lengths in range are told apart by their
u32. -/
theorem receiverSideCheckComparesTheRecord : Obligations.ReceiverSideCheckComparesTheRecord := by
  intro image payload s t himage hpayload h
  rw [runEvents_clear_cons, runEvents_absorbsOf (image := []) hpayload] at h
  cases h
  have size_eq : BitVec.ofNat 32 payload.length = BitVec.ofNat 32 image.length ↔ payload.length = image.length := by
    rw [← BitVec.toNat_inj, ofNat_length_toNat hpayload, ofNat_length_toNat himage]
  exact and_congr_left' size_eq

/-! ### What the registers describe over any history -/

/-- The registers are the record of the image, which the counter can hold (10_state.md R26 (b)). -/
structure Recorded (image : List Byte) (s : State) : Prop where
  length_le : image.length ≤ Config.maxImageLen
  eq_record : record image s = s

theorem recorded_clearRegisters (s : State) : Recorded [] (clearRegisters s) := ⟨Nat.zero_le _, rfl⟩

theorem recorded_withHost {image : List Byte} {s : State} (h : Recorded image s) (es : List HostEvent) (n : Nat) :
    Recorded image (withHost es n s) :=
  ⟨h.length_le, congrArg (withHost es n) h.eq_record⟩

theorem recorded_addAndCount {image : List Byte} {s : State} (h : Recorded image s) (hl : s.len ≠ 0xFFFFFFFF#32)
    (b : Byte) : Recorded (image ++ [b]) (addAndCount b s) := by
  obtain ⟨hle, heq⟩ := h
  have hne : image.length ≠ Config.maxImageLen := by
    rw [← heq] at hl
    exact fun hfull => hl ((ofNat_length_eq_full_iff hle).mpr hfull)
  refine ⟨?_, ?_⟩
  · rw [List.length_append, List.length_singleton]
    omega
  · rw [← heq, addAndCount_record]
    rfl

theorem recorded_emitFrame {image : List Byte} {s : State} (h : Recorded image s) : Recorded image (emitFrame s) := by
  refine ⟨h.length_le, ?_⟩
  rw [← h.eq_record]
  rfl

/-- The bytes absorbed since the last CLEAR, one verdict later (10_state.md R26 (b)). -/
def absorbedAfter (before : List Byte) : Verdict → List Byte
  | .command .clear => []
  | .command (.absorb b) => before ++ [b]
  | .command .emit => before
  | .illegal _ => before

theorem absorbedSince_command (before : List Byte) (w : Cmd) (es : List HostEvent) :
    absorbedSince before (.command w :: es) = absorbedSince (absorbedAfter before (decode w)) es := by
  rw [absorbedSince]
  match decode w with
  | .command .clear => rfl
  | .command (.absorb b) => rfl
  | .command .emit => rfl
  | .illegal _ => rfl

/-- If `FAULT` = 0 is left, the word found the bytes' record and left the record of the bytes after it. -/
theorem recorded_afterVerdict {before : List Byte} {s : State} (h : s.fault = 0#2 → Recorded before s) (v : Verdict)
    (hend : (afterVerdict v s).fault = 0#2) : Recorded (absorbedAfter before v) (afterVerdict v s) := by
  obtain ⟨rfl, ht⟩ | ⟨hf, -, ht⟩ | ⟨-, b, -, -, ht⟩ | ⟨hf, b, rfl, hl, ht⟩ | ⟨hf, rfl, ht⟩ | ⟨-, r, -, ht⟩ :=
    afterVerdict_cases v s <;> rw [ht] at hend ⊢
  · exact recorded_clearRegisters s
  · exact absurd hend hf
  · simp [FaultCause.code] at hend
  · exact recorded_addAndCount (h hf) hl b
  · exact recorded_emitFrame (h hf)
  · simp [FaultCause.code] at hend

/-- The same over any history. -/
theorem recorded_of_runEvents {history : List HostEvent} {before : List Byte} {s t : State}
    (h : s.fault = 0#2 → Recorded before s) (hrun : runEvents s history = .next t) (hend : t.fault = 0#2) :
    Recorded (absorbedSince before history) t := by
  induction history generalizing before s with
  | nil =>
    rw [runEvents_nil] at hrun
    cases hrun
    exact recorded_withHost (h hend) [] s.pc
  | cons e history ih =>
    match e with
    | .reset =>
      rw [runEvents_reset_cons] at hrun
      exact ih (fun _ => recorded_clearRegisters s) hrun
    | .command w =>
      rw [runEvents_command_cons] at hrun
      rw [absorbedSince_command]
      exact ih (s := withHost [] (s.pc + 1) (afterVerdict (decode w) s))
        (fun hf => recorded_withHost (recorded_afterVerdict h (decode w) hf) [] (s.pc + 1)) hrun

/-- Settles O40: zeroed registers record the empty image, and the history keeps the record. -/
theorem recordDescribesTheBytesSinceClear : Obligations.RecordDescribesTheBytesSinceClear := by
  intro s t history hsum hlen hf hrun hend
  have start : Recorded [] s := ⟨Nat.zero_le _, record_nil_eq_self hsum hlen hf⟩
  obtain ⟨hle, heq⟩ := recorded_of_runEvents (fun _ => start) hrun hend
  rw [← heq]
  exact ⟨hle, ofNat_length_toNat hle, rfl, rfl⟩

/-! ### The software component -/

theorem faultCodeOf_eq_zero_iff (o : Option FaultCause) : faultCodeOf o = 0#2 ↔ o = none := by
  match o with
  | none => decide
  | some .lengthOverflow => decide
  | some .illegalCommand => decide

/-! What one command does to the component, an equation for each case. -/

theorem FrameBuilder.command_clear (a : FrameBuilder) :
    a.command (.command .clear) = { a with image := [], fault := none } := rfl

theorem FrameBuilder.command_of_faulted {a : FrameBuilder} {v : Verdict} (hv : v ≠ .command .clear)
    (hf : a.fault ≠ none) : a.command v = a := by
  obtain ⟨c, hc⟩ := Option.ne_none_iff_exists'.mp hf
  match v with
  | .command .clear => exact absurd rfl hv
  | .command (.absorb b) => simp [FrameBuilder.command, hc]
  | .command .emit => simp [FrameBuilder.command, hc]
  | .illegal r => simp [FrameBuilder.command, hc]

theorem FrameBuilder.command_absorb_of_full (b : Byte) {a : FrameBuilder} (hf : a.fault = none)
    (hl : a.image.length = Config.maxImageLen) :
    a.command (.command (.absorb b)) = { a with fault := some .lengthOverflow } := by
  simp [FrameBuilder.command, hf, hl]

theorem FrameBuilder.command_absorb_of_room (b : Byte) {a : FrameBuilder} (hf : a.fault = none)
    (hl : a.image.length ≠ Config.maxImageLen) :
    a.command (.command (.absorb b)) = { a with image := a.image ++ [b] } := by
  simp [FrameBuilder.command, hf, hl]

theorem FrameBuilder.command_emit {a : FrameBuilder} (hf : a.fault = none) :
    a.command (.command .emit) = { a with emitted := a.emitted ++ [a.image] } := by
  simp [FrameBuilder.command, hf]

theorem FrameBuilder.command_illegal (r : Reserved) {a : FrameBuilder} (hf : a.fault = none) :
    a.command (.illegal r) = { a with fault := some .illegalCommand } := by
  simp [FrameBuilder.command, hf]

/-! The relation. -/

theorem Represents.fault_eq_zero_iff {a : FrameBuilder} {s : State} (h : Represents a s) :
    s.fault = 0#2 ↔ a.fault = none := by
  rw [h.fault, faultCodeOf_eq_zero_iff]

theorem Represents.len_eq_full_iff {a : FrameBuilder} {s : State} (h : Represents a s) :
    s.len = 0xFFFFFFFF#32 ↔ a.image.length = Config.maxImageLen := by
  rw [← BitVec.toNat_inj, h.len]
  rfl

/-- Without fault the state is the record of the component's image. -/
theorem Represents.recorded {a : FrameBuilder} {s : State} (h : Represents a s) (hf : s.fault = 0#2) :
    Recorded a.image s := by
  refine ⟨?_, record_eq_self h.sum h.len hf⟩
  rw [← h.len]
  exact Nat.le_of_lt_succ s.len.isLt

theorem represents_of_recorded {a : FrameBuilder} {s : State} (h : Recorded a.image s) (hf : a.fault = none)
    (hout : s.out = a.emitted.flatMap fun image => frame (build image)) : Represents a s := by
  obtain ⟨hle, heq⟩ := h
  rw [← heq]
  exact ⟨rfl, ofNat_length_toNat hle, by rw [hf]; rfl, hout⟩

theorem emitFrame_out_of_recorded {image : List Byte} {s : State} (h : Recorded image s) :
    (emitFrame s).out = s.out ++ frame (build image) := by
  rw [← h.eq_record]
  rfl

/-- The component does not know the host's queue and index. -/
theorem represents_withHost {a : FrameBuilder} {s : State} (h : Represents a s) (es : List HostEvent) (n : Nat) :
    Represents a (withHost es n s) :=
  ⟨h.sum, h.len, h.fault, h.out⟩

/-- CLEAR and reset start the component's image again, and keep what it emitted. -/
theorem represents_clearRegisters {a : FrameBuilder} {s : State} (h : Represents a s) :
    Represents { a with image := [], fault := none } (clearRegisters s) :=
  represents_of_recorded (recorded_clearRegisters s) rfl h.out

/-- The commuting diagram of one command or reserved word (40_accumulate.md R51 to R54, 41_serialize.md R59). -/
theorem represents_afterVerdict {a : FrameBuilder} {s : State} (h : Represents a s) (v : Verdict) :
    Represents (a.command v) (afterVerdict v s) := by
  obtain ⟨rfl, ht⟩ | ⟨hf, hv, ht⟩ | ⟨hf, b, rfl, hl, ht⟩ | ⟨hf, b, rfl, hl, ht⟩ | ⟨hf, rfl, ht⟩ | ⟨hf, r, rfl, ht⟩ :=
    afterVerdict_cases v s <;> rw [ht]
  · rw [FrameBuilder.command_clear]
    exact represents_clearRegisters h
  · rw [ne_eq, h.fault_eq_zero_iff] at hf
    rwa [FrameBuilder.command_of_faulted hv hf]
  · rw [FrameBuilder.command_absorb_of_full b (h.fault_eq_zero_iff.mp hf) (h.len_eq_full_iff.mp hl)]
    exact ⟨h.sum, h.len, rfl, h.out⟩
  · have hnone := h.fault_eq_zero_iff.mp hf
    rw [FrameBuilder.command_absorb_of_room b hnone (h.len_eq_full_iff.not.mp hl)]
    exact represents_of_recorded (recorded_addAndCount (h.recorded hf) hl b) hnone h.out
  · have hnone := h.fault_eq_zero_iff.mp hf
    have recorded := h.recorded hf
    rw [FrameBuilder.command_emit hnone]
    refine represents_of_recorded (recorded_emitFrame recorded) hnone ?_
    rw [emitFrame_out_of_recorded recorded, h.out]
    simp only [List.flatMap_append, List.flatMap_singleton]
  · rw [FrameBuilder.command_illegal r (h.fault_eq_zero_iff.mp hf)]
    exact ⟨h.sum, h.len, rfl, h.out⟩

/-- A run of the block is a run of the component, one event at a time. -/
theorem runEvents_simulates {a : FrameBuilder} {s : State} (h : Represents a s) (history : List HostEvent) :
    ∃ t, runEvents s history = .next t ∧ Represents (history.foldl FrameBuilder.event a) t ∧ runEnded t ∧
      t.pc = s.pc + (history.filter isCommand).length := by
  induction history generalizing a s with
  | nil => exact ⟨withHost [] s.pc s, rfl, represents_withHost h [] s.pc, rfl, rfl⟩
  | cons e history ih =>
    match e with
    | .reset =>
      rw [runEvents_reset_cons]
      exact ih (represents_clearRegisters h)
    | .command w =>
      rw [runEvents_command_cons]
      obtain ⟨t, hrun, hrep, hended, hpc⟩ :=
        ih (represents_withHost (represents_afterVerdict h (decode w)) [] (s.pc + 1))
      refine ⟨t, hrun, hrep, hended, ?_⟩
      rw [hpc, List.filter_cons_of_pos rfl, List.length_cons]
      exact Nat.add_right_comm s.pc 1 _

/-- Settles O41: both have absorbed and produced nothing. -/
theorem resetRepresentsTheFreshComponent : Obligations.ResetRepresentsTheFreshComponent :=
  ⟨rfl, rfl, rfl, rfl⟩

/-- Settles O42: the diagram for a verdict, and for reset, with the host's side moved on. -/
theorem blockSimulatesTheComponent : Obligations.BlockSimulatesTheComponent := by
  intro a s e rest h hp
  match e with
  | .reset => exact ⟨_, step_of_reset hp, represents_withHost (represents_clearRegisters h) rest s.pc, rfl⟩
  | .command w =>
    exact ⟨_, step_command hp, represents_withHost (represents_afterVerdict h (decode w)) rest (s.pc + 1), rfl⟩

/-- Settles O43, by induction on the history, one diagram an event. -/
theorem runsSimulateTheComponent : Obligations.RunsSimulateTheComponent :=
  fun _ _ history h => runEvents_simulates h history

end Sys2Proof.Safety
end
